-- ==== Sys2Proof/Word.lean ====
section
/-!
DEFINITION. The two number types of the LS8 CORE: a byte (registers, memory cells, addresses, the pc:
00_scope.md R6, R8) and the index of a general register (R7).
-/

namespace Sys2Proof

/-- `Byte` of 00_scope.md section 4: every register, memory cell, address and pc value (R6, R8).
Its `+`, `-` and `*` are the spec's `+8`, `-8` and `*8`. -/
abbrev Byte := BitVec 8

/-- The index of a general register, 0 to 7 (R7, R13). -/
abbrev RegIdx := Fin 8

end Sys2Proof
end

