-- ==== Sys2Proof/Config.lean ====
section
/-!
DEFINITION. What an implementation fixes: the parameter summary of 00_scope.md and the shape of the parameters
`OPC` and `OPC_RESERVED` (R11, 92_eei_decisions.md). The default values of the two tables stand in Decode.lean.
The spec leaves no result value open, so there is no free value here.
-/

namespace Sys2Proof

/-- The nine instructions of the hardware, in the order of the spec's opcode table (R2). -/
inductive Mnemonic
  | hlt | ldi | prn | mul | add | pop | push | call | ret
  deriving DecidableEq, Repr

/-- Every mnemonic, in the order in which the decoder compares (R68). -/
def Mnemonic.all : List Mnemonic :=
  [.hlt, .ldi, .prn, .mul, .add, .pop, .push, .call, .ret]

/-- The eleven reserved mnemonics: no instructions of this hardware (R3), in the order of R71's table. -/
inductive ReservedMnemonic
  | cmp | jmp | jeq | jne | and | or | xor | not | shl | shr | mod
  deriving DecidableEq, Repr

/-- Every reserved mnemonic (R71). -/
def ReservedMnemonic.all : List ReservedMnemonic :=
  [.cmp, .jmp, .jeq, .jne, .and, .or, .xor, .not, .shl, .shr, .mod]

/-- The two named parameters the spec leaves open (92_eei_decisions.md D3): `OPC : Mnemonic -> Byte` (R11) and
`OPC_RESERVED : ReservedMnemonic -> Byte`, which only names bytes. -/
structure Opc where
  core : Mnemonic → Byte
  reserved : ReservedMnemonic → Byte

/-- `SP_INDEX` (R9). -/
def Config.spIndex : RegIdx := 7

/-- `SP_RESET` (R9, R38). -/
def Config.spReset : Byte := 0xF4

/-- `PC_RESET` (R39). -/
def Config.pcReset : Byte := 0x00

/-- `MEM_SIZE` (R8). -/
def Config.memSize : Nat := 256

/-- `MAX_LEN` (R10). -/
def Config.maxLen : Nat := 3

end Sys2Proof
end

