-- ==== Sys2Proof/Machine/State.lean ====
section
/-!
DEFINITION. The state of the LS8 CORE as plain data (10_state.md), the reasons a step can stop, and the state after
reset (R37 to R44, R120).
-/

namespace Sys2Proof.Machine

/-- The run state (R22). -/
inductive RunState
  | inReset | running | halted | faulted
  deriving DecidableEq, Repr

/-- The fields of the fault record `FR`, 8 bits each (R25). -/
structure FaultRecord where
  /-- The cause code (R107). -/
  cause : Byte
  /-- The address of the faulting opcode byte. -/
  pc : Byte
  /-- The faulting opcode byte. -/
  ir : Byte
  /-- The offending operand byte for BadRegister, 0 for IllegalInstruction. -/
  info : Byte
  deriving DecidableEq, Repr

/-- The memory `M` (R23) as a list of (address, byte) pairs in one canonical form: addresses strictly rising and
below 256, and no entry that holds 0, which is what an unlisted address reads as (R41). `Memory.wf` says so. -/
abbrev Memory := List Host.Cell

/-- Everything the spec gives the CORE (R13 to R28). -/
structure State where
  /-- The general registers `x[0]` to `x[7]` (R13); `x[7]` is the stack pointer (R16). -/
  regs : Vector Byte 8
  /-- The program counter (R18). -/
  pc : Byte
  /-- The flags register `FL`, one opaque byte (R20). -/
  fl : Byte
  /-- The run state (R22). -/
  run : RunState
  /-- The memory (R23). -/
  mem : Memory
  /-- The output channel `OUT`, oldest byte first (R24). -/
  out : List Byte
  /-- The fault record `FR`; `none` in every run state but `faulted` (R25). -/
  fr : Option FaultRecord
  /-- The load address counter `LA` (R27). -/
  la : Byte
  /-- The opcode latch `IR` (R26). -/
  ir : Byte
  /-- The first operand latch `A` (R26). -/
  opA : Byte
  /-- The second operand latch `B` (R26). -/
  opB : Byte
  deriving DecidableEq, Repr

/-- The reasons for which the MODEL stops. There are none: both faults of the spec (R107) are entered as next states
(R109), so no meaning ends in one (log entry 6). Safe: nothing is stopped that the hardware runs. -/
inductive Fault
  deriving DecidableEq, Repr

/-- The reasons for which the model gives no next state. -/
inductive Refusal
  /-- Raised by a refused arm of `exec` for an instruction without a meaning. No arm raises it. Safe. -/
  | notModelled (mnemonic : String)
  /-- Raised by `stepWith` under a table that breaks R70 (93_implementation_defined.md entry 25). Safe: the spec says
  the model must reject such a configuration. -/
  | illegalOpc
  /-- Raised by the host action `Load` outside `in_reset` (R30, 93 entry 22). Safe: the host has no such action. -/
  | loadOutsideReset
  /-- Raised by the host action `Release` outside `in_reset` (R30, 93 entry 22). Safe: the host has no such action. -/
  | releaseOutsideReset
  /-- Raised by the host action `Inspect` while running (R30, 93 entry 23). Safe: the host has no such action. -/
  | inspectWhileRunning
  deriving DecidableEq, Repr

/-- What a meaning and a step answer. -/
abbrev Outcome := Host.Outcome State Fault Refusal

/-- The registers after reset (R37, R38). -/
def resetRegs : Vector Byte 8 := #v[0, 0, 0, 0, 0, 0, 0, Config.spReset]

/-- The state right after `Reset` (R37 to R43). The latches are unspecified there (R44); 0 is a DESIGN CHOICE
(log entry 3). -/
def State.reset : State where
  regs := resetRegs
  pc := Config.pcReset
  fl := 0
  run := .inReset
  mem := []
  out := []
  fr := none
  la := 0
  ir := 0
  opA := 0
  opB := 0

end Sys2Proof.Machine
end

