-- ==== Sys2Proof/Syntax.lean ====
section
/-!
DEFINITION. The instructions as syntax: one constructor per row of spec/opcode_table.json. An operand is the whole
operand byte (R63, R66), so that a register operand above 7 is an instruction too: the one that raises BadRegister.
The twelve ILLEGAL rows are constructors as well, because every byte has a verdict (R68, R85).
-/

namespace Sys2Proof

/-- One constructor per row of spec/opcode_table.json. `a` and `b` are the operand bytes `A` and `B` (R65). -/
inductive Instr
  /-- HLT (R87). -/
  | hlt
  /-- LDI rA,imm: `a` a register index, `imm` an immediate (R93). -/
  | ldi (a imm : Byte)
  /-- PRN rA (R88). -/
  | prn (a : Byte)
  /-- MUL rA,rB (R94). -/
  | mul (a b : Byte)
  /-- ADD rA,rB (R95). -/
  | add (a b : Byte)
  /-- POP rA (R99). -/
  | pop (a : Byte)
  /-- PUSH rA (R100). -/
  | push (a : Byte)
  /-- CALL rA (R101). -/
  | call (a : Byte)
  /-- RET (R102). -/
  | ret
  /-- The reserved byte CMP: ILLEGAL (R3, R71). -/
  | cmpReserved
  /-- The reserved byte JMP: ILLEGAL (R3, R71). -/
  | jmpReserved
  /-- The reserved byte JEQ: ILLEGAL (R3, R71). -/
  | jeqReserved
  /-- The reserved byte JNE: ILLEGAL (R3, R71). -/
  | jneReserved
  /-- The reserved byte AND: ILLEGAL (R3, R71). -/
  | andReserved
  /-- The reserved byte OR: ILLEGAL (R3, R71). -/
  | orReserved
  /-- The reserved byte XOR: ILLEGAL (R3, R71). -/
  | xorReserved
  /-- The reserved byte NOT: ILLEGAL (R3, R71). -/
  | notReserved
  /-- The reserved byte SHL: ILLEGAL (R3, R71). -/
  | shlReserved
  /-- The reserved byte SHR: ILLEGAL (R3, R71). -/
  | shrReserved
  /-- The reserved byte MOD: ILLEGAL (R3, R71). -/
  | modReserved
  /-- Any other byte, `ir`: ILLEGAL (R68, R72). -/
  | anyOther (ir : Byte)
  deriving DecidableEq, Repr

/-- The verdict of the decoder on an opcode byte (R32, R68). `reserved` and `other` together are the spec's
class ILLEGAL. -/
inductive OpClass
  | core (m : Mnemonic)
  | reserved (r : ReservedMnemonic)
  | other
  deriving DecidableEq, Repr

/-- The eleven symbolic values of the ALU selector (R89). -/
inductive AluSel
  | none | mul | add | cmp | and | or | xor | not | shl | shr | mod
  deriving DecidableEq, Repr

/-- The memory operation kinds the decoder puts out (R32). -/
inductive MemOp
  | none | stackWrite | stackRead
  deriving DecidableEq, Repr

/-- The class of an instruction. -/
def Instr.opClass : Instr → OpClass
  | .hlt => .core .hlt
  | .ldi _ _ => .core .ldi
  | .prn _ => .core .prn
  | .mul _ _ => .core .mul
  | .add _ _ => .core .add
  | .pop _ => .core .pop
  | .push _ => .core .push
  | .call _ => .core .call
  | .ret => .core .ret
  | .cmpReserved => .reserved .cmp
  | .jmpReserved => .reserved .jmp
  | .jeqReserved => .reserved .jeq
  | .jneReserved => .reserved .jne
  | .andReserved => .reserved .and
  | .orReserved => .reserved .or
  | .xorReserved => .reserved .xor
  | .notReserved => .reserved .not
  | .shlReserved => .reserved .shl
  | .shrReserved => .reserved .shr
  | .modReserved => .reserved .mod
  | .anyOther _ => .other

/-- Whether an instruction is one of the nine (R2); the others are ILLEGAL. -/
def Instr.isCore (i : Instr) : Bool :=
  match i.opClass with
  | .core _ => true
  | .reserved _ => false
  | .other => false

/-- The operand bytes an instruction is written with, in the order of their addresses (R65). -/
def Instr.operands : Instr → List Byte
  | .ldi a imm => [a, imm]
  | .mul a b => [a, b]
  | .add a b => [a, b]
  | .prn a => [a]
  | .pop a => [a]
  | .push a => [a]
  | .call a => [a]
  | .hlt => []
  | .ret => []
  | .cmpReserved => []
  | .jmpReserved => []
  | .jeqReserved => []
  | .jneReserved => []
  | .andReserved => []
  | .orReserved => []
  | .xorReserved => []
  | .notReserved => []
  | .shlReserved => []
  | .shrReserved => []
  | .modReserved => []
  | .anyOther _ => []

/-- `RegOperands` of R85: the operand bytes that are used as register indices, `A` before `B` (R82). -/
def Instr.regOperands : Instr → List Byte
  | .mul a b => [a, b]
  | .add a b => [a, b]
  | .ldi a _ => [a]
  | .prn a => [a]
  | .pop a => [a]
  | .push a => [a]
  | .call a => [a]
  | .hlt => []
  | .ret => []
  | .cmpReserved => []
  | .jmpReserved => []
  | .jeqReserved => []
  | .jneReserved => []
  | .andReserved => []
  | .orReserved => []
  | .xorReserved => []
  | .notReserved => []
  | .shlReserved => []
  | .shrReserved => []
  | .modReserved => []
  | .anyOther _ => []

/-- The number of bytes an instruction is written with: 1 to 3 for the nine (R10), the opcode byte alone for an
ILLEGAL one, whose length is never used (R79). -/
def Instr.size (i : Instr) : Nat := i.operands.length + 1

/-- `rA` of the assembler syntax (R74), which spells `r0` to `r7` only; that an operand byte above 7 prints as `r8` to
`r255`, and not as no form at all, is a DESIGN CHOICE (log entry 20). -/
def asmReg (v : Byte) : String := "r" ++ toString v.toNat

/-- The assembly form of an instruction (R74); an ILLEGAL byte has none. -/
def Instr.assembly : Instr → Option String
  | .hlt => some "HLT"
  | .ldi a imm => some ("LDI " ++ asmReg a ++ "," ++ toString imm.toNat)
  | .prn a => some ("PRN " ++ asmReg a)
  | .mul a b => some ("MUL " ++ asmReg a ++ "," ++ asmReg b)
  | .add a b => some ("ADD " ++ asmReg a ++ "," ++ asmReg b)
  | .pop a => some ("POP " ++ asmReg a)
  | .push a => some ("PUSH " ++ asmReg a)
  | .call a => some ("CALL " ++ asmReg a)
  | .ret => some "RET"
  | .cmpReserved => none
  | .jmpReserved => none
  | .jeqReserved => none
  | .jneReserved => none
  | .andReserved => none
  | .orReserved => none
  | .xorReserved => none
  | .notReserved => none
  | .shlReserved => none
  | .shrReserved => none
  | .modReserved => none
  | .anyOther _ => none

end Sys2Proof
end

