-- ==== Sys2Proof/Machine/Flags.lean ====
section
/-!
DEFINITION. The flag computation of the spec: there is one flags register, and no ALU operation writes it (R20, R92).
-/

namespace Sys2Proof.Machine

/-- `FL` after an ALU operation: what it was (R92). There is no carry, overflow or zero indication (R90). -/
def flagsAfter (_sel : AluSel) (fl : Byte) : Byte := fl

end Sys2Proof.Machine
end

