-- ==== Sys2Proof/WellFormed.lean ====
section
/-!
DEFINITION. When an instruction is well formed: its register operands are 0 to 7 (R66), and the byte of an
`anyOther` is none of the bytes the tables name (R68). An instruction with a register operand above 7 still has an
encoding and a meaning (BadRegister), so `encodable` asks only for the second check.
-/

namespace Sys2Proof

/-- The byte is the opcode of one of the nine instructions under the table (R68). -/
def Opc.namesCore (opc : Opc) (ir : Byte) : Bool :=
  Mnemonic.all.any fun m => opc.core m == ir

/-- The byte is one the table gives a reserved mnemonic (R71). -/
def Opc.namesReserved (opc : Opc) (ir : Byte) : Bool :=
  ReservedMnemonic.all.any fun r => opc.reserved r == ir

/-- The instruction has an encoding of its own under the table: the byte of an `anyOther` is not in the tables. -/
def Instr.encodable (opc : Opc) : Instr → Bool
  | .anyOther ir => !opc.namesCore ir && !opc.namesReserved ir
  | .hlt => true
  | .ldi _ _ => true
  | .prn _ => true
  | .mul _ _ => true
  | .add _ _ => true
  | .pop _ => true
  | .push _ => true
  | .call _ => true
  | .ret => true
  | .cmpReserved => true
  | .jmpReserved => true
  | .jeqReserved => true
  | .jneReserved => true
  | .andReserved => true
  | .orReserved => true
  | .xorReserved => true
  | .notReserved => true
  | .shlReserved => true
  | .shrReserved => true
  | .modReserved => true

/-- The legal values of a register-index operand are 0 to 7 (R66). -/
def isRegIndex (v : Byte) : Bool := decide (v.toNat ≤ 7)

/-- Well formed: encodable, and every register operand is a register index (R66, R82). -/
def Instr.wellFormed (opc : Opc) (i : Instr) : Bool :=
  i.encodable opc && i.regOperands.all isRegIndex

end Sys2Proof
end

