-- ==== Sys2Proof/Decode.lean ====
section
/-!
DEFINITION. The instruction decoder (R32, R62 to R73), total on any bytes and rejecting by name, and after it the
encoder. Both read the one table `OPC`; its default and the conditions every table must meet stand first.
-/

namespace Sys2Proof

/-! ### The opcode table -/

/-- The default `OPC` (R69). PRESUMED: the bytes are the conventional LS-8 values, from general knowledge and not
from the source document (log entry 1). -/
def defaultCore : Mnemonic → Byte
  | .hlt => 0b00000001
  | .ldi => 0b10000010
  | .prn => 0b01000111
  | .mul => 0b10100010
  | .add => 0b10100000
  | .pop => 0b01000110
  | .push => 0b01000101
  | .call => 0b01010000
  | .ret => 0b00010001

/-- The default `OPC_RESERVED` (R71). PRESUMED (log entry 1). -/
def defaultReserved : ReservedMnemonic → Byte
  | .cmp => 0b10100111
  | .jmp => 0b01010100
  | .jeq => 0b01010101
  | .jne => 0b01010110
  | .and => 0b10101000
  | .or => 0b10101010
  | .xor => 0b10101011
  | .not => 0b01101001
  | .shl => 0b10101100
  | .shr => 0b10101101
  | .mod => 0b10100100

/-- The table `step` runs under: the default of the parameter `OPC` (R11, R69, R71). -/
def defaultOpc : Opc := { core := defaultCore, reserved := defaultReserved }

/-- The number of operand bytes `N = IR[7:6]` that a byte announces (R62). -/
def operandCount (ir : Byte) : Nat := (ir >>> 6).toNat

/-- The `N` that R70's first condition requires of each mnemonic's opcode. -/
def requiredCount : Mnemonic → Nat
  | .hlt => 0
  | .ldi => 2
  | .prn => 1
  | .mul => 2
  | .add => 2
  | .pop => 1
  | .push => 1
  | .call => 1
  | .ret => 0

/-- R70's three conditions, each tried on every mnemonic: the length bits, the nine values pairwise distinct, and
none of the nine a reserved one. -/
def opcLegal (opc : Opc) : Bool :=
  (Mnemonic.all.all fun m => operandCount (opc.core m) == requiredCount m) &&
  (Mnemonic.all.all fun m => Mnemonic.all.all fun n => opc.core m != opc.core n || m == n) &&
  (Mnemonic.all.all fun m => !opc.namesReserved (opc.core m))

/-- The eleven reserved values are pairwise distinct. R70 does not ask for it (log entry 12), and no behaviour
depends on it: it only decides which name a reserved byte decodes to. -/
def reservedDistinct (opc : Opc) : Bool :=
  ReservedMnemonic.all.all fun r => ReservedMnemonic.all.all fun q => opc.reserved r != opc.reserved q || r == q

/-! ### The decoder -/

/-- The decoder's control outputs for a class (R32). -/
structure Controls where
  /-- `len`. -/
  len : Nat
  /-- The ALU selector (R89). -/
  alu : AluSel
  /-- The memory operation kind. -/
  mem : MemOp
  /-- `suppress_advance`. -/
  suppressAdvance : Bool
  deriving DecidableEq, Repr

/-- R32's table of control outputs per class, for the nine classes that do not fault. -/
def controls : Mnemonic → Controls
  | .hlt => ⟨1, .none, .none, false⟩
  | .ldi => ⟨3, .none, .none, false⟩
  | .prn => ⟨2, .none, .none, false⟩
  | .mul => ⟨3, .mul, .none, false⟩
  | .add => ⟨3, .add, .none, false⟩
  | .pop => ⟨2, .none, .stackRead, false⟩
  | .push => ⟨2, .none, .stackWrite, false⟩
  | .call => ⟨2, .none, .stackWrite, true⟩
  | .ret => ⟨1, .none, .stackRead, true⟩

/-- All 8 bits of `IR` are compared with the nine values of `OPC` (R68); a byte that is none of them is ILLEGAL, and
the reserved table only gives it a name (R71). -/
def decodeClass (opc : Opc) (ir : Byte) : OpClass :=
  match Mnemonic.all.find? fun m => opc.core m == ir with
  | some m => .core m
  | none =>
    match ReservedMnemonic.all.find? fun r => opc.reserved r == ir with
    | some r => .reserved r
    | none => .other

/-- The instruction of a mnemonic with its operand bytes; an unused operand byte is ignored (R65). -/
def coreInstr (m : Mnemonic) (a b : Byte) : Instr :=
  match m with
  | .hlt => .hlt
  | .ldi => .ldi a b
  | .prn => .prn a
  | .mul => .mul a b
  | .add => .add a b
  | .pop => .pop a
  | .push => .push a
  | .call => .call a
  | .ret => .ret

/-- The ILLEGAL row of a reserved mnemonic (R71). -/
def reservedInstr : ReservedMnemonic → Instr
  | .cmp => .cmpReserved
  | .jmp => .jmpReserved
  | .jeq => .jeqReserved
  | .jne => .jneReserved
  | .and => .andReserved
  | .or => .orReserved
  | .xor => .xorReserved
  | .not => .notReserved
  | .shl => .shlReserved
  | .shr => .shrReserved
  | .mod => .modReserved

/-- The instruction of a class, from the three latched bytes. -/
def classInstr (c : OpClass) (ir a b : Byte) : Instr :=
  match c with
  | .core m => coreInstr m a b
  | .reserved r => reservedInstr r
  | .other => .anyOther ir

/-- The decoder: from `IR`, `A` and `B` to an instruction (R32, R68). It never refuses: every byte has a verdict (R85). -/
def decode (opc : Opc) (ir a b : Byte) : Instr :=
  classInstr (decodeClass opc ir) ir a b

/-- Why a list of bytes is no instruction. The CORE itself always has its three bytes (R80). -/
inductive DecodeReject
  /-- The table breaks one of R70's conditions. Raised by `decodeBytes`; safe. -/
  | illegalOpc
  /-- The list is empty. Raised by `decodeBytes`; safe. -/
  | noOpcodeByte
  /-- The list ends before the operand bytes of its instruction. Raised by `decodeBytes`; safe. -/
  | missingOperand
  deriving DecidableEq, Repr

/-- The instruction at the head of a list of bytes. -/
def decodeBytes (opc : Opc) (bytes : List Byte) : Except DecodeReject Instr :=
  if opcLegal opc then
    match bytes with
    | [] => .error .noOpcodeByte
    | ir :: rest =>
      let i := decode opc ir (rest.getD 0 0) (rest.getD 1 0)
      if rest.length < i.operands.length then .error .missingOperand else .ok i
  else .error .illegalOpc

/-! ### The encoder -/

/-- The opcode byte of an instruction under the table (R63, R69, R71). -/
def opcodeByte (opc : Opc) (i : Instr) : Byte :=
  match i with
  | .hlt => opc.core .hlt
  | .ldi _ _ => opc.core .ldi
  | .prn _ => opc.core .prn
  | .mul _ _ => opc.core .mul
  | .add _ _ => opc.core .add
  | .pop _ => opc.core .pop
  | .push _ => opc.core .push
  | .call _ => opc.core .call
  | .ret => opc.core .ret
  | .cmpReserved => opc.reserved .cmp
  | .jmpReserved => opc.reserved .jmp
  | .jeqReserved => opc.reserved .jeq
  | .jneReserved => opc.reserved .jne
  | .andReserved => opc.reserved .and
  | .orReserved => opc.reserved .or
  | .xorReserved => opc.reserved .xor
  | .notReserved => opc.reserved .not
  | .shlReserved => opc.reserved .shl
  | .shrReserved => opc.reserved .shr
  | .modReserved => opc.reserved .mod
  | .anyOther ir => ir

/-- The bytes of an instruction at ascending addresses: the opcode byte, then the operand bytes (R50, R63). -/
def encode (opc : Opc) (i : Instr) : List Byte :=
  opcodeByte opc i :: i.operands

/-! ### Words as the opcode table numbers them -/

/-- Byte `k` of a word whose byte 0 is the instruction's first byte. -/
def wordByte (w k : Nat) : Byte := BitVec.ofNat 8 (w >>> (8 * k))

/-- The three bytes of an instruction word of `nbits` bits, every bit from `nbits` on being 0. -/
def wordBytes (nbits w : Nat) : List Byte :=
  let v := w % 2 ^ nbits
  [wordByte v 0, wordByte v 1, wordByte v 2]

/-- The instruction the decoder reads from a word numbered as spec/opcode_table.json numbers it. -/
def decodeTableWord (nbits w : Nat) : Option Instr :=
  match decodeBytes defaultOpc (wordBytes nbits w) with
  | .ok i => some i
  | .error _ => none

end Sys2Proof
end

