-- ==== Sys2Proof/Machine/Ops.lean ====
section
/-!
DEFINITION. The named operations over memory and registers: one byte of memory (20_memory.md), the register file
(R31), the stack pointer controller (R36, R96, R97), the output channel (R24), fetching (R78, R80), the operand
advance (R33, R83), and entering a fault (R109). There is no return from a fault beside it: only the host's `Reset`
leaves `faulted` (R111), and it stands in HostActions.lean.
-/

namespace Sys2Proof.Machine

/-! ### Memory -/

/-- The canonical form of a memory: every address exists (R45), no listed byte is the 0 that an unlisted address
reads as (R41), and addresses strictly rise. -/
abbrev Memory.wf (m : Memory) : Prop :=
  m.Pairwise (fun c d => c.1 < d.1) ∧ ∀ c ∈ m, c.1 < Config.memSize ∧ c.2 ≠ 0

/-- The byte listed for an address, or the reset contents 0 (R41). -/
def cellAt (m : Memory) (k : Nat) : Byte :=
  match m with
  | [] => 0
  | (a, v) :: rest => if a = k then v else cellAt rest k

/-- `MemRead(a, 1)` (R48, R52). -/
def Memory.read (m : Memory) (a : Byte) : Byte := cellAt m a.toNat

/-- List a byte for an address, in rising order, in place of the byte listed before. -/
def putCell (m : Memory) (k : Nat) (v : Byte) : Memory :=
  match m with
  | [] => [(k, v)]
  | (a, w) :: rest =>
    if k < a then (k, v) :: (a, w) :: rest
    else if k = a then (k, v) :: rest
    else (a, w) :: putCell rest k v

/-- `MemWrite(a, 1, v)` (R48), keeping the canonical form: writing 0 takes the entry out. -/
def Memory.write (m : Memory) (a v : Byte) : Memory :=
  if v = 0 then m.filter fun c => c.1 != a.toNat else putCell m a.toNat v

/-- Store bytes at rising addresses, modulo 256 (R50). -/
def storeBytes (m : Memory) (a : Byte) (bytes : List Byte) : Memory :=
  match bytes with
  | [] => m
  | v :: rest => storeBytes (m.write a v) (a + 1) rest

/-! ### Registers -/

/-- `x[i]` (R14). -/
def State.reg (s : State) (i : RegIdx) : Byte := s.regs[i.val]

/-- `x[i] <- v` (R14). No register is hard-wired. -/
def State.setReg (s : State) (i : RegIdx) (v : Byte) : State :=
  { s with regs := s.regs.set i.val v }

/-- `SP`, which is `x[7]` (R9, R16). -/
def State.sp (s : State) : Byte := s.reg Config.spIndex

/-- `SP <- v` (R16). -/
def State.setSp (s : State) (v : Byte) : State := s.setReg Config.spIndex v

/-! ### The stack pointer controller -/

/-- The address a push writes: the stack pointer before it, less one, modulo 256 (R36, R96). -/
def State.pushAddr (s : State) : Byte := s.sp - 1

/-- `Push(v)` (R96). -/
def State.push (s : State) (v : Byte) : State :=
  { s.setSp s.pushAddr with mem := s.mem.write s.pushAddr v }

/-- `Pop()` (R97): the byte at the stack pointer, and the state with the stack pointer one higher, modulo 256. -/
def State.pop (s : State) : Byte × State :=
  (s.mem.read s.sp, s.setSp (s.sp + 1))

/-! ### Output and program counter -/

/-- `Emit(v)` (R24). -/
def State.emit (s : State) (v : Byte) : State := { s with out := s.out ++ [v] }

/-- `pc <- target` of CALL and RET (R33). -/
def State.jump (s : State) (target : Byte) : State := { s with pc := target }

/-- The end of an instruction (R33, R83): `pc <- pc +8 L` unless the class suppresses the operand advance.
`L` is R32's `len` of the class, which is `IR[7:6] + 1` under every legal table (R62, R70; log entry 9). -/
def State.finish (s : State) (m : Mnemonic) : State :=
  if (controls m).suppressAdvance then s
  else { s with pc := s.pc + BitVec.ofNat 8 (controls m).len }

/-! ### Fetch -/

/-- The three fetch reads into the latches `IR`, `A` and `B`, whatever the instruction's length (R55, R78, R80). -/
def State.fetch (s : State) : State :=
  { s with ir := s.mem.read s.pc, opA := s.mem.read (s.pc + 1), opB := s.mem.read (s.pc + 2) }

/-- The instruction a running CORE fetches next under the table `opc`. -/
def State.nextInstr (opc : Opc) (s : State) : Instr :=
  decode opc (s.mem.read s.pc) (s.mem.read (s.pc + 1)) (s.mem.read (s.pc + 2))

/-! ### Entering a fault -/

/-- The cause code of IllegalInstruction (R107). -/
def causeIllegalInstruction : Byte := 0x01

/-- The cause code of BadRegister (R107). -/
def causeBadRegister : Byte := 0x02

/-- Fault entry (R109): `run` and `FR` are written and nothing else. -/
def State.raise (s : State) (cause info : Byte) : State :=
  { s with run := .faulted, fr := some { cause := cause, pc := s.pc, ir := s.ir, info := info } }

/-- `raise IllegalInstruction(pc, IR, 0)` (R81, R105). -/
def State.raiseIllegal (s : State) : State := s.raise causeIllegalInstruction 0

/-- `raise BadRegister(pc, IR, v)` (R82, R106). -/
def State.raiseBadRegister (s : State) (v : Byte) : State := s.raise causeBadRegister v

/-! ### Sequencing, and a step of a stopped CORE -/

/-- One action after another: a stop ends the sequence. -/
def andThen (o : Outcome) (f : State → Outcome) : Outcome :=
  match o with
  | .next s => f s
  | .fault r => .fault r
  | .refused r => .refused r


/-- A step in `in_reset`, `halted` or `faulted`: no instruction is fetched and no state changes (R77, R86; log
entry 5). -/
def stoppedStep (s : State) : Outcome := .next s

end Sys2Proof.Machine
end

