-- ==== Sys2Proof/Machine/Operands.lean ====
section
/-!
DEFINITION. The operand forms (R65 to R67): a register-index operand, checked before any effect (R82), and the
immediate, which is its byte.
-/

namespace Sys2Proof.Machine

/-- A register-index operand is the whole byte, without extension or masking; legal values are 0 to 7 (R66). -/
def regIndex (v : Byte) : Option RegIdx :=
  if h : v.toNat < 8 then some ⟨v.toNat, h⟩ else none

/-- The check of one register operand (R82): the instruction goes on with the register it names, or raises
BadRegister with nothing written (R106). Nested, the outer operand is checked first. -/
def withReg (s : State) (v : Byte) (go : RegIdx → Outcome) : Outcome :=
  match regIndex v with
  | some i => go i
  | none => .next (s.raiseBadRegister v)

/-- The operand byte that names register `ri`: its index (R66, R74). -/
def regByte (i : RegIdx) : Byte := BitVec.ofNat 8 i.val

/-- LDI's immediate: the operand byte as it is (R67). -/
def immediate (v : Byte) : Byte := v

end Sys2Proof.Machine
end

