-- ==== Sys2Proof/Machine/Alu.lean ====
section
/-!
DEFINITION. The ALU multiplexer and the register instructions LDI, MUL and ADD (42_alu.md).
-/

namespace Sys2Proof.Machine

/-- The ALU's result, or none where it does not write `x[A]` (R34, R90, R91): exact arithmetic, then the low 8 bits.
The eight reserved selectors are silent no-ops, which no instruction selects. -/
def aluResult (sel : AluSel) (a b : Byte) : Option Byte :=
  match sel with
  | .mul => some (BitVec.ofNat 8 (a.toNat * b.toNat))
  | .add => some (BitVec.ofNat 8 (a.toNat + b.toNat))
  | .none => none
  | .cmp => none
  | .and => none
  | .or => none
  | .xor => none
  | .not => none
  | .shl => none
  | .shr => none
  | .mod => none

/-- The ALU on two registers (R89): both are read, then `x[A]` is overwritten if there is a result. -/
def State.alu (s : State) (sel : AluSel) (ia ib : RegIdx) : State :=
  match aluResult sel (s.reg ia) (s.reg ib) with
  | some r => { s.setReg ia r with fl := flagsAfter sel s.fl }
  | none => s

/-- LDI (R93). -/
def execLdi (a imm : Byte) (s : State) : Outcome :=
  withReg s a fun ia => .next ((s.setReg ia (immediate imm)).finish .ldi)

/-- MUL (R94). -/
def execMul (a b : Byte) (s : State) : Outcome :=
  withReg s a fun ia => withReg s b fun ib => .next ((s.alu (controls .mul).alu ia ib).finish .mul)

/-- ADD (R95). -/
def execAdd (a b : Byte) (s : State) : Outcome :=
  withReg s a fun ia => withReg s b fun ib => .next ((s.alu (controls .add).alu ia ib).finish .add)

end Sys2Proof.Machine
end

