-- ==== Sys2Proof/Machine/Control.lean ====
section
/-!
DEFINITION. The control transfers CALL and RET (44_call_return.md).
-/

namespace Sys2Proof.Machine

/-- The return address of a CALL at `pc`: just after its two bytes, modulo 256 (R101). -/
def State.returnAddr (s : State) : Byte := s.pc + 2

/-- CALL (R101): the target register is read after the push, so CALL r7 goes to the new stack pointer. -/
def execCall (a : Byte) (s : State) : Outcome :=
  withReg s a fun ia =>
    let pushed := s.push s.returnAddr
    .next ((pushed.jump (pushed.reg ia)).finish .call)

/-- RET (R102). -/
def execRet (s : State) : Outcome :=
  .next ((s.pop.2.jump s.pop.1).finish .ret)

end Sys2Proof.Machine
end

