-- ==== Sys2Proof/Machine/Illegal.lean ====
section
/-!
DEFINITION. The ILLEGAL rows of the opcode table: each raises IllegalInstruction (R3, R71, R105). `FR.ir` is the
latched opcode byte (R109). Each row has a definition of its own, one line over the shared operation.
-/

namespace Sys2Proof.Machine

/-- The reserved byte CMP: `raise IllegalInstruction(pc, IR, 0)` (R71, R81, R105). -/
def execCmpReserved (s : State) : Outcome := .next s.raiseIllegal

/-- The reserved byte JMP: `raise IllegalInstruction(pc, IR, 0)` (R71, R81, R105). -/
def execJmpReserved (s : State) : Outcome := .next s.raiseIllegal

/-- The reserved byte JEQ: `raise IllegalInstruction(pc, IR, 0)` (R71, R81, R105). -/
def execJeqReserved (s : State) : Outcome := .next s.raiseIllegal

/-- The reserved byte JNE: `raise IllegalInstruction(pc, IR, 0)` (R71, R81, R105). -/
def execJneReserved (s : State) : Outcome := .next s.raiseIllegal

/-- The reserved byte AND: `raise IllegalInstruction(pc, IR, 0)` (R71, R81, R105). -/
def execAndReserved (s : State) : Outcome := .next s.raiseIllegal

/-- The reserved byte OR: `raise IllegalInstruction(pc, IR, 0)` (R71, R81, R105). -/
def execOrReserved (s : State) : Outcome := .next s.raiseIllegal

/-- The reserved byte XOR: `raise IllegalInstruction(pc, IR, 0)` (R71, R81, R105). -/
def execXorReserved (s : State) : Outcome := .next s.raiseIllegal

/-- The reserved byte NOT: `raise IllegalInstruction(pc, IR, 0)` (R71, R81, R105). -/
def execNotReserved (s : State) : Outcome := .next s.raiseIllegal

/-- The reserved byte SHL: `raise IllegalInstruction(pc, IR, 0)` (R71, R81, R105). -/
def execShlReserved (s : State) : Outcome := .next s.raiseIllegal

/-- The reserved byte SHR: `raise IllegalInstruction(pc, IR, 0)` (R71, R81, R105). -/
def execShrReserved (s : State) : Outcome := .next s.raiseIllegal

/-- The reserved byte MOD: `raise IllegalInstruction(pc, IR, 0)` (R71, R81, R105). -/
def execModReserved (s : State) : Outcome := .next s.raiseIllegal

/-- Any other byte: `raise IllegalInstruction(pc, IR, 0)` (R68, R72, R81, R105). -/
def execAnyOther (s : State) : Outcome := .next s.raiseIllegal

end Sys2Proof.Machine
end

