-- ==== Sys2Proof/Machine/Stack.lean ====
section
/-!
DEFINITION. The stack instructions POP and PUSH (43_stack.md).
-/

namespace Sys2Proof.Machine

/-- POP (R99): the increment of `SP` comes first, so POP r7 ends with the popped byte. -/
def execPop (a : Byte) (s : State) : Outcome :=
  withReg s a fun ia => .next ((s.pop.2.setReg ia s.pop.1).finish .pop)

/-- PUSH (R100): the register is read before the stack pointer moves. -/
def execPush (a : Byte) (s : State) : Outcome :=
  withReg s a fun ia => .next ((s.push (s.reg ia)).finish .push)

end Sys2Proof.Machine
end

