-- ==== Sys2Proof/Machine/System.lean ====
section
/-!
DEFINITION. The system and output instructions HLT and PRN (41_system.md).
-/

namespace Sys2Proof.Machine

/-- HLT (R87): the operand advance is not suppressed, so `pc` ends after the HLT byte (R83; log entry 10). -/
def execHlt (s : State) : Outcome :=
  .next (State.finish { s with run := .halted } .hlt)

/-- PRN (R88): emits the unsigned byte; the host renders it. -/
def execPrn (a : Byte) (s : State) : Outcome :=
  withReg s a fun ia => .next ((s.emit (s.reg ia)).finish .prn)

end Sys2Proof.Machine
end

