-- ==== Sys2Proof/Machine/Dispatch.lean ====
section
/-!
DEFINITION. The effect of each instruction on the state whose latches hold it (R81): one direct call per constructor.
-/

namespace Sys2Proof.Machine

def exec (i : Instr) (s : State) : Host.Outcome State Fault Refusal :=
  match i with
  | .hlt => Sys2Proof.Machine.execHlt s
  | .ldi a imm => Sys2Proof.Machine.execLdi a imm s
  | .prn a => Sys2Proof.Machine.execPrn a s
  | .mul a b => Sys2Proof.Machine.execMul a b s
  | .add a b => Sys2Proof.Machine.execAdd a b s
  | .pop a => Sys2Proof.Machine.execPop a s
  | .push a => Sys2Proof.Machine.execPush a s
  | .call a => Sys2Proof.Machine.execCall a s
  | .ret => Sys2Proof.Machine.execRet s
  | .cmpReserved => Sys2Proof.Machine.execCmpReserved s
  | .jmpReserved => Sys2Proof.Machine.execJmpReserved s
  | .jeqReserved => Sys2Proof.Machine.execJeqReserved s
  | .jneReserved => Sys2Proof.Machine.execJneReserved s
  | .andReserved => Sys2Proof.Machine.execAndReserved s
  | .orReserved => Sys2Proof.Machine.execOrReserved s
  | .xorReserved => Sys2Proof.Machine.execXorReserved s
  | .notReserved => Sys2Proof.Machine.execNotReserved s
  | .shlReserved => Sys2Proof.Machine.execShlReserved s
  | .shrReserved => Sys2Proof.Machine.execShrReserved s
  | .modReserved => Sys2Proof.Machine.execModReserved s
  | .anyOther _ => Sys2Proof.Machine.execAnyOther s

end Sys2Proof.Machine
end

