-- ==== Sys2Proof/Machine/Step.lean ====
section
/-!
DEFINITION. One step of the CORE: one whole instruction (R12, R84, R85), under any opcode table and under the default
one.
-/

namespace Sys2Proof.Machine

/-- One step under the table `opc` (R85): fetch, decode, and the instruction's meaning, which holds the operand check,
the effect and the advance. Outside `running` no instruction is fetched (R77). A table that breaks R70 is refused. -/
def stepWith (opc : Opc) (s : State) : Host.Outcome State Fault Refusal :=
  if opcLegal opc then
    match s.run with
    | .running => exec (decode opc s.fetch.ir s.fetch.opA s.fetch.opB) s.fetch
    | .inReset => stoppedStep s
    | .halted => stoppedStep s
    | .faulted => stoppedStep s
  else .refused .illegalOpc

/-- One step of the hardware with the default opcode table (R11, R69). -/
def step (s : State) : Host.Outcome State Fault Refusal := stepWith defaultOpc s

/-- The state with an instruction word stored where the next step fetches, and running, so that the next step runs it
(log entry 7). It stands for the host's `Load` and `Release`. -/
def State.withFetchWord (s : State) (nbits w : Nat) : State :=
  { s with mem := storeBytes s.mem s.pc (wordBytes nbits w), run := .running }

end Sys2Proof.Machine
end

