-- ==== Sys2Proof/Machine/Arbiter.lean ====
section
/-!
DEFINITION. The memory arbiter (R35, R55): which accesses one instruction makes, and in which order.
-/

namespace Sys2Proof.Machine

/-- One access to the memory port; every access is one byte (R48). -/
inductive Access
  | read (a : Byte)
  | write (a : Byte)
  deriving DecidableEq, Repr

/-- The memory operation kind of an instruction (R32): none for an ILLEGAL one. -/
def memOp (i : Instr) : MemOp :=
  match i.opClass with
  | .core m => (controls m).mem
  | .reserved _ => .none
  | .other => .none

/-- The instruction's own data access, at most one, and none where it raises a fault (R35, R55, R82). -/
def dataAccess (i : Instr) (s : State) : List Access :=
  if i.regOperands.all isRegIndex then
    match memOp i with
    | .none => []
    | .stackWrite => [.write s.pushAddr]
    | .stackRead => [.read s.sp]
  else []

/-- The accesses of the next step of a running CORE, in order (R55). -/
def accesses (opc : Opc) (s : State) : List Access :=
  [.read s.pc, .read (s.pc + 1), .read (s.pc + 2)] ++ dataAccess (s.nextInstr opc) s

end Sys2Proof.Machine
end

