-- ==== Sys2Proof/Machine/HostActions.lean ====
section
/-!
DEFINITION. What the host can do to the CORE (R30) and see of it (R29, R30): reset, load, release, observing the
output, inspecting a stopped CORE, and the output pins. Host actions land between instructions (R84).
-/

namespace Sys2Proof.Machine

/-! ### Actions that change the state -/

/-- The host's actions that change the state (R30). `Observe output` and `Inspect` change nothing. -/
inductive HostAction
  | reset
  | load (v : Byte)
  | release
  deriving DecidableEq, Repr

/-- `Reset`: in any run state, every element takes its reset value (R120). -/
def hostReset (_s : State) : Outcome := .next State.reset

/-- One transfer on the load path: `M[LA] <- v; LA <- LA +8 1` (R121). -/
def State.loadByte (s : State) (v : Byte) : State :=
  { s with mem := s.mem.write s.la v, la := s.la + 1 }

/-- `Load(v)`, allowed only in `in_reset` (R30, R121). -/
def hostLoad (v : Byte) (s : State) : Outcome :=
  if s.run = .inReset then .next (s.loadByte v) else .refused .loadOutsideReset

/-- `Release`, allowed only in `in_reset`: `run <- running` and nothing else (R30). That `LA` therefore keeps the image
length modulo 256, where R123 calls the launch state the reset values, is a DESIGN CHOICE (log entry 23). -/
def hostRelease (s : State) : Outcome :=
  if s.run = .inReset then .next { s with run := .running } else .refused .releaseOutsideReset

/-- One host action (R30). -/
def hostAct (a : HostAction) (s : State) : Outcome :=
  match a with
  | .reset => hostReset s
  | .load v => hostLoad v s
  | .release => hostRelease s

/-- One `Load` for each image byte, in order (R121, R122). -/
def loadImage (image : List Byte) (s : State) : Outcome :=
  match image with
  | [] => .next s
  | v :: rest => andThen (hostLoad v s) (loadImage rest)

/-- The boot order: `Reset`, `Load` for each image byte, `Release` (R125). -/
def boot (image : List Byte) (s : State) : Outcome :=
  andThen (hostReset s) fun t => andThen (loadImage image t) hostRelease

/-- The load port at a transfer (R29): `load_valid` is ignored while the CORE is not in reset. -/
def loadPort (valid : Bool) (data : Byte) (s : State) : State :=
  if valid && s.run = .inReset then s.loadByte data else s

/-! ### What the host sees -/

/-- `Observe output` (R30): the bytes appended to `OUT` after the first `taken`. -/
def State.observe (s : State) (taken : Nat) : List Byte := s.out.drop taken

/-- The host's rendering of one output byte: its decimal digits and a newline (R24, R88, D7). It is done outside the
CORE. -/
def renderByte (v : Byte) : String := toString v.toNat ++ "\n"

/-- The console text of a run's output (R24, R88). -/
def State.console (s : State) : String := String.join (s.out.map renderByte)

/-- What `Inspect` can read (R30). -/
inductive Probe
  | reg (i : RegIdx)
  | pc
  | fl
  | mem (a : Byte)
  | run
  | fr
  | la
  deriving DecidableEq, Repr

/-- What `Inspect` answers. -/
inductive ProbeValue
  | byte (v : Byte)
  | runState (r : RunState)
  | record (fr : Option FaultRecord)
  deriving DecidableEq, Repr

/-- The state element a probe names. -/
def State.probe (s : State) (p : Probe) : ProbeValue :=
  match p with
  | .reg i => .byte (s.reg i)
  | .pc => .byte s.pc
  | .fl => .byte s.fl
  | .mem a => .byte (s.mem.read a)
  | .run => .runState s.run
  | .fr => .record s.fr
  | .la => .byte s.la

/-- `Inspect`, allowed only while `run` is not `running` (R30, D17). It changes nothing. -/
def State.inspect (s : State) (p : Probe) : Except Refusal ProbeValue :=
  if s.run = .running then .error .inspectWhileRunning else .ok (s.probe p)

/-- The state-valued output ports (R29). -/
structure Pins where
  halted : Bool
  faulted : Bool
  /-- `fault_cause`, `fault_pc`, `fault_ir` and `fault_info`, valid while `faulted` is 1. -/
  fault : Option FaultRecord
  deriving DecidableEq, Repr

/-- The output ports of a state (R29). The transfers on `out_valid`/`out_data` are what `observe` reads. -/
def State.pins (s : State) : Pins where
  halted := s.run == .halted
  faulted := s.run == .faulted
  fault := s.fr

end Sys2Proof.Machine
end

