-- ==== Sys2Proof/Machine/Events.lean ====
section
/-!
DEFINITION. The CORE with its host: a run is a sequence of instruction steps and host actions (R30, R77, R84).
-/

namespace Sys2Proof.Machine

/-- What can happen next: the CORE's step, or an action of the host between two instructions (R84). -/
inductive Event
  | instruction
  | host (a : HostAction)
  deriving DecidableEq, Repr

/-- One event under the table `opc`. -/
def event (opc : Opc) (e : Event) (s : State) : Outcome :=
  match e with
  | .instruction => stepWith opc s
  | .host a => hostAct a s

/-- A sequence of events, ending at the first one that is refused. -/
def runEvents (opc : Opc) (es : List Event) (s : State) : Outcome :=
  match es with
  | [] => .next s
  | e :: rest => andThen (event opc e s) (runEvents opc rest)

end Sys2Proof.Machine
end

