-- ==== Sys2Proof/Machine/Reference.lean ====
section
/-!
DEFINITION. The reference composition of R85, written from its pseudocode as one function: its length comes from
`IR`, its operand check from the list `RegOperands`, and each case from the pseudocode's line. It is not what `step`
runs; an obligation states that the two agree.
-/

namespace Sys2Proof.Machine

/-- `x[v]` for an operand byte that passed the check of R82. -/
def operandReg (v : Byte) : RegIdx := Fin.ofNat 8 v.toNat

/-- The case lines of R85: the state after the effect, and `suppress`. -/
def referenceEffect (m : Mnemonic) (a b : Byte) (s : State) : State × Bool :=
  let x := operandReg a
  let y := operandReg b
  match m with
  | .hlt => ({ s with run := .halted }, false)
  | .ldi => (s.setReg x b, false)
  | .prn => ({ s with out := s.out ++ [s.reg x] }, false)
  | .mul => (s.setReg x (s.reg x * s.reg y), false)
  | .add => (s.setReg x (s.reg x + s.reg y), false)
  | .pop =>
    let v := s.mem.read (s.reg 7)
    let s1 := s.setReg 7 (s.reg 7 + 1)
    (s1.setReg x v, false)
  | .push =>
    let v := s.reg x
    let s1 := s.setReg 7 (s.reg 7 - 1)
    ({ s1 with mem := s1.mem.write (s1.reg 7) v }, false)
  | .call =>
    let s1 := s.setReg 7 (s.reg 7 - 1)
    let s2 := { s1 with mem := s1.mem.write (s1.reg 7) (s1.pc + 2) }
    ({ s2 with pc := s2.reg x }, true)
  | .ret =>
    let v := s.mem.read (s.reg 7)
    let s1 := s.setReg 7 (s.reg 7 + 1)
    ({ s1 with pc := v }, true)

/-- `Step(s)` of R85; outside `running` nothing changes (R77). -/
def referenceStep (opc : Opc) (s : State) : State :=
  if s.run = .running then
    let ir := s.mem.read s.pc
    let len := (ir >>> 6) + 1
    let a := s.mem.read (s.pc + 1)
    let b := s.mem.read (s.pc + 2)
    let s1 := { s with ir := ir, opA := a, opB := b }
    match Mnemonic.all.find? fun m => opc.core m == ir with
    | none => { s1 with run := .faulted, fr := some ⟨0x01, s.pc, ir, 0⟩ }
    | some m =>
      match (coreInstr m a b).regOperands.find? fun v => 7 < v.toNat with
      | some v => { s1 with run := .faulted, fr := some ⟨0x02, s.pc, ir, v⟩ }
      | none =>
        let after := referenceEffect m a b s1
        if after.2 then after.1 else { after.1 with pc := after.1.pc + len }
  else s

end Sys2Proof.Machine
end

