-- ==== Sys2Proof/Safety.lean ====
section
/-!
DEFINITION. What counts as a safe run, in the terms claims use: a run that does not end `faulted` (R126), the fault
an instruction is about to raise (R108), and the invariant of every reachable state.
-/

namespace Sys2Proof.Machine

/-- The fault record that the instruction at `pc` writes, if it raises a fault: IllegalInstruction first, then
BadRegister for `A`, then for `B` (R105, R106, R108, R109). -/
def State.pendingFault (opc : Opc) (s : State) : Option FaultRecord :=
  let i := s.nextInstr opc
  if i.isCore then
    (i.regOperands.find? fun v => !isRegIndex v).map fun v =>
      { cause := causeBadRegister, pc := s.pc, ir := s.mem.read s.pc, info := v }
  else
    some { cause := causeIllegalInstruction, pc := s.pc, ir := s.mem.read s.pc, info := 0 }

/-- A state of a safe run: the run has not ended with a fault (R126). -/
def State.safe (s : State) : Prop := s.run ≠ .faulted

/-- The same general registers, program counter, memory (byte by byte), flags register, output and load counter: what
a fault leaves alone (R109). -/
structure SameBesidesFault (s t : State) : Prop where
  regs : ∀ i, t.reg i = s.reg i
  pc : t.pc = s.pc
  mem : ∀ a, t.mem.read a = s.mem.read a
  fl : t.fl = s.fl
  out : t.out = s.out
  la : t.la = s.la

/-- The latches an instruction keeps from its fetch to its end (R26). -/
structure SameLatches (s t : State) : Prop where
  ir : t.ir = s.ir
  opA : t.opA = s.opA
  opB : t.opB = s.opB

/-- The part of the frame that all nine instructions share: flags register, fault record, load counter and latches
(R20, R25, R26, R27). -/
structure SameControl (s t : State) : Prop where
  fl : t.fl = s.fl
  fr : t.fr = s.fr
  la : t.la = s.la
  latches : SameLatches s t

/-- Every element holds the reset value the spec gives it (R37 to R43). The latches are not named: R44 gives none. -/
structure HoldsResetValues (t : State) : Prop where
  low : ∀ i : RegIdx, i ≠ 7 → t.reg i = 0
  sp : t.reg 7 = 0xF4
  pc : t.pc = 0
  fl : t.fl = 0
  mem : ∀ a, t.mem.read a = 0
  run : t.run = .inReset
  out : t.out = []
  fr : t.fr = none
  la : t.la = 0

/-- The outcome is fault entry with BadRegister for the operand byte `v`, on the state `s` (R106, R109): `run` and
`FR` written, and every other element as in `s`. -/
def RaisesBadRegister (s : State) (v : Byte) (o : Outcome) : Prop :=
  o = .next { s with run := .faulted, fr := some { cause := 0x02, pc := s.pc, ir := s.ir, info := v } }

/-- Under every legal table, the opcode of `m` followed by the operand bytes decodes to `build`, and the top two bits
of the opcode give the length `len` (R62, R63, R68). -/
def EncodedAs (m : Mnemonic) (len : Nat) (build : Byte → Byte → Instr) : Prop :=
  ∀ opc : Opc, opcLegal opc = true → ∀ a b : Byte,
    decode opc (opc.core m) a b = build a b ∧ operandCount (opc.core m) + 1 = len

/-- The invariant of every state that a run with its host can reach under the table `opc`. -/
structure Inv (opc : Opc) (s : State) : Prop where
  /-- The memory is in canonical form. -/
  mem : Memory.wf s.mem
  /-- `FL` holds its reset value for the whole run (R20). -/
  fl : s.fl = 0
  /-- In `faulted`, `FR` is the record of the fault that the instruction at `pc` raises, and there is one (R109). -/
  faulted : s.run = .faulted → s.fr.isSome ∧ s.fr = s.pendingFault opc
  /-- `FR` is none in every other run state (R25). -/
  noFault : s.run ≠ .faulted → s.fr = none
  /-- In `in_reset`, only the memory and the load counter can differ from their reset values (R30). -/
  inReset : s.run = .inReset → s.regs = resetRegs ∧ s.pc = 0 ∧ s.out = []

end Sys2Proof.Machine
end

