-- ==== Sys2Proof/Certificates/Slice0/Obligations.lean ====
section
/-!
DEFINITION. The statements for the provers. Where a statement has a table `opc`, it holds for every legal value of the
parameter OPC (R11); `step` runs under the default one, whose bytes are PRESUMED (log entry 1). Operand bytes are
written `regByte i` (the byte of register `ri`) or taken above 7, so that together the two cover every byte.
-/

open Sys2Proof Sys2Proof.Machine

/-! ### Reset, load, boot and inspection -/

/-- R120, with the values of R37 to R40 and R43: a Reset in any run state leaves the reset values, whatever the state
before. The latches, to which R44 lets the model give any value, are those of `State.reset` (log entry 3). -/
def Obligations.ResetInAnyStateLeavesResetValues : Prop :=
  ∀ (opc : Opc) (s : State), ∃ t, event opc (.host .reset) s = .next t ∧ t = State.reset ∧ HoldsResetValues t

/-- R121: the host's Load writes the byte at LA, increments LA modulo 256 and leaves the rest; outside in_reset it is
not allowed. That the latches keep their values too is the model's choice (log entry 4): outside an instruction R26 and
R44 leave them unspecified. -/
def Obligations.LoadWritesTheNextCell : Prop :=
  ∀ (s : State) (v : Byte),
    (s.run = .inReset → ∃ t, hostAct (.load v) s = .next t ∧
      (∀ a, t.mem.read a = if a = s.la then v else s.mem.read a) ∧
      t.la.toNat = (s.la.toNat + 1) % 256 ∧
      (∀ i, t.reg i = s.reg i) ∧ t.pc = s.pc ∧ t.fl = s.fl ∧ t.run = .inReset ∧ t.out = s.out ∧ t.fr = s.fr ∧
      SameLatches s t) ∧
    (s.run ≠ .inReset → ∀ t, hostAct (.load v) s ≠ .next t)

/-- R122 and R41: after the load, `M[a]` is the last image byte whose index is `a` modulo 256, or 0 if there is none. -/
def Obligations.LoadedImageLastByteWins : Prop :=
  ∀ image : List Byte, ∃ t, loadImage image State.reset = .next t ∧
    t.la.toNat = image.length % 256 ∧
    (∀ (a : Byte) (j : Nat) (h : j < image.length), j % 256 = a.toNat →
      (∀ k, j < k → k < image.length → k % 256 ≠ a.toNat) → t.mem.read a = image[j]) ∧
    (∀ a : Byte, (∀ j, j < image.length → j % 256 ≠ a.toNat) → t.mem.read a = 0)

/-- R123: Release is allowed only in in_reset and starts the run; after the boot order the state is the launch state,
with the memory as the loads leave it, and the first fetch is at address 0. Nothing is said of LA there (log entry 23). -/
def Obligations.BootReachesTheLaunchState : Prop :=
  (∀ s : State, s.run ≠ .inReset → ∀ t, hostAct .release s ≠ .next t) ∧
  (∀ (image : List Byte) (s : State), ∃ l t, loadImage image State.reset = .next l ∧ boot image s = .next t ∧
    t.run = .running ∧ t.pc = 0 ∧ t.fetch.ir = t.mem.read 0 ∧ (∀ a, t.mem.read a = l.mem.read a) ∧
    (∀ i : RegIdx, t.reg i = if i = 7 then 0xF4 else 0) ∧ t.fl = 0 ∧ t.out = [] ∧ t.fr = none)

/-- R124 (an inference of the spec, under the default table, log entry 1): with an empty image the first step faults
with IllegalInstruction at address 0. -/
def Obligations.EmptyImageFaultsAtAddressZero : Prop :=
  ∀ s : State, ∃ t u, boot [] s = .next t ∧ step t = .next u ∧ u.run = .faulted ∧
    u.fr = some { cause := 0x01, pc := 0x00, ir := 0x00, info := 0 }

/-- 93_implementation_defined.md entries 22 and 23, with R30: Load and Release outside in_reset and Inspect while
running are refused by name (log entry 8); Inspect of a stopped CORE reads any of `x[0..7]`, `pc`, `FL`, `M[a]`, `run`,
`FR` and `LA`, each by its own probe. -/
def Obligations.HostActionsOutOfPlaceAreRefused : Prop :=
  ∀ (s : State) (v : Byte),
    (s.run ≠ .inReset → hostAct (.load v) s = .refused .loadOutsideReset ∧
      hostAct .release s = .refused .releaseOutsideReset ∧ loadPort true v s = s) ∧
    (s.run = .running → ∀ p, s.inspect p = .error .inspectWhileRunning) ∧
    (s.run ≠ .running →
      (∀ i, s.inspect (.reg i) = .ok (.byte (s.reg i))) ∧
      s.inspect .pc = .ok (.byte s.pc) ∧
      s.inspect .fl = .ok (.byte s.fl) ∧
      (∀ a, s.inspect (.mem a) = .ok (.byte (s.mem.read a))) ∧
      s.inspect .run = .ok (.runState s.run) ∧
      s.inspect .fr = .ok (.record s.fr) ∧
      s.inspect .la = .ok (.byte s.la))

/-! ### Encoding -/

/-- Decoding the bytes of an encodable instruction gives it back, with every operand byte, whatever bytes follow. The
nine need a legal table only; the names of reserved bytes need distinct reserved values (log entry 12). -/
def Obligations.DecodeOfEncodeIsTheInstruction : Prop :=
  ∀ (opc : Opc) (i : Instr) (rest : List Byte), opcLegal opc = true →
    (i.isCore = true ∨ reservedDistinct opc = true) → i.encodable opc = true →
    decodeBytes opc (encode opc i ++ rest) = .ok i

/-- Every word has one meaning: the decoded instruction is encodable, and it is written with the bytes it was read
from. -/
def Obligations.EncodeOfDecodeIsTheFetchedBytes : Prop :=
  ∀ (opc : Opc) (ir a b : Byte),
    encode opc (decode opc ir a b) = [ir, a, b].take (decode opc ir a b).size ∧
    (decode opc ir a b).encodable opc = true

/-- The nine opcode bytes of R69's table, each with its operand bytes, and the eleven of R71's decode to the rows they
stand for; so does 0x00, one of the bytes in neither (R72). All under the default table (PRESUMED, log entry 1). -/
def Obligations.DefaultTableWordsDecode : Prop :=
  decodeBytes defaultOpc [0x01] = .ok .hlt ∧
  decodeBytes defaultOpc [0x82, 0x00, 0xC8] = .ok (.ldi 0 200) ∧
  decodeBytes defaultOpc [0x47, 0x03] = .ok (.prn 3) ∧
  decodeBytes defaultOpc [0xA2, 0x00, 0x01] = .ok (.mul 0 1) ∧
  decodeBytes defaultOpc [0xA0, 0x02, 0x03] = .ok (.add 2 3) ∧
  decodeBytes defaultOpc [0x46, 0x07] = .ok (.pop 7) ∧
  decodeBytes defaultOpc [0x45, 0x05] = .ok (.push 5) ∧
  decodeBytes defaultOpc [0x50, 0x01] = .ok (.call 1) ∧
  decodeBytes defaultOpc [0x11] = .ok .ret ∧
  decodeBytes defaultOpc [0xA7] = .ok .cmpReserved ∧
  decodeBytes defaultOpc [0x54, 0x00] = .ok .jmpReserved ∧
  decodeBytes defaultOpc [0x55] = .ok .jeqReserved ∧
  decodeBytes defaultOpc [0x56] = .ok .jneReserved ∧
  decodeBytes defaultOpc [0xA8] = .ok .andReserved ∧
  decodeBytes defaultOpc [0xAA] = .ok .orReserved ∧
  decodeBytes defaultOpc [0xAB] = .ok .xorReserved ∧
  decodeBytes defaultOpc [0x69] = .ok .notReserved ∧
  decodeBytes defaultOpc [0xAC] = .ok .shlReserved ∧
  decodeBytes defaultOpc [0xAD] = .ok .shrReserved ∧
  decodeBytes defaultOpc [0xA4] = .ok .modReserved ∧
  decodeBytes defaultOpc [0x00] = .ok (.anyOther 0x00)

/-- R72 (an inference of the spec, under the default table, log entry 1): the default table is legal, and a byte is
ILLEGAL exactly when it is none of nine different values, so that the other 247 are. -/
def Obligations.DefaultTableIllegalBytes : Prop :=
  opcLegal defaultOpc = true ∧
  ∃ nine : List Byte, nine = [0x01, 0x11, 0x45, 0x46, 0x47, 0x50, 0x82, 0xA0, 0xA2] ∧ nine.Nodup ∧
    ∀ ir a b : Byte, (decode defaultOpc ir a b).isCore = false ↔ ir ∉ nine

/-- R62: an instruction of the nine is `(IR >> 6) + 1` bytes long, which is the length its step advances by; the top
two bits hold 0 to 3. -/
def Obligations.LengthIsTopTwoBitsPlusOne : Prop :=
  (∀ ir : Byte, operandCount ir = ir.toNat / 64 ∧ operandCount ir ≤ 3) ∧
  (∀ (opc : Opc) (m : Mnemonic) (ir a b : Byte), opcLegal opc = true → opc.core m = ir →
    (encode opc (decode opc ir a b)).length = operandCount ir + 1 ∧ (controls m).len = operandCount ir + 1)

/-- R64: a byte with top bits 11 decodes as ILLEGAL, its step raises IllegalInstruction with no advance, and only the
three bytes are read. -/
def Obligations.TopBitsElevenAreIllegal : Prop :=
  ∀ (opc : Opc) (s : State), opcLegal opc = true → s.run = .running → operandCount (s.mem.read s.pc) = 3 →
    (s.nextInstr opc).isCore = false ∧
    accesses opc s = [.read s.pc, .read (s.pc + 1), .read (s.pc + 2)] ∧
    ∃ t, stepWith opc s = .next t ∧ t.run = .faulted ∧ t.pc = s.pc ∧
      t.fr = some { cause := 0x01, pc := s.pc, ir := s.mem.read s.pc, info := 0 }

/-- R70 (an inference of the spec): a legal table is exactly one that meets the three conditions; under a legal table
the step answers a next state in every state, and under any other it is refused (93_implementation_defined.md entry 25).
That it answers one outside `running` too is log entry 5. -/
def Obligations.OnlyLegalTablesRun : Prop :=
  ∀ opc : Opc,
    (opcLegal opc = true ↔
      ((opc.core .hlt).toNat / 64 = 0 ∧ (opc.core .ldi).toNat / 64 = 2 ∧ (opc.core .prn).toNat / 64 = 1 ∧
       (opc.core .mul).toNat / 64 = 2 ∧ (opc.core .add).toNat / 64 = 2 ∧ (opc.core .pop).toNat / 64 = 1 ∧
       (opc.core .push).toNat / 64 = 1 ∧ (opc.core .call).toNat / 64 = 1 ∧ (opc.core .ret).toNat / 64 = 0) ∧
      (∀ m n, m ≠ n → opc.core m ≠ opc.core n) ∧ (∀ m r, opc.core m ≠ opc.reserved r)) ∧
    (opcLegal opc = true → ∀ s, ∃ t, stepWith opc s = .next t) ∧
    (opcLegal opc = false → ∀ s, stepWith opc s = .refused .illegalOpc)

/-- R65: which operand bytes each of the nine uses, and how; an unused operand byte is ignored and not checked. -/
def Obligations.OperandRolesPerInstruction : Prop :=
  ∀ opc : Opc, opcLegal opc = true → ∀ a b : Byte,
    (decode opc (opc.core .ldi) a b = .ldi a b ∧ (Instr.ldi a b).regOperands = [a]) ∧
    (decode opc (opc.core .mul) a b = .mul a b ∧ (Instr.mul a b).regOperands = [a, b]) ∧
    (decode opc (opc.core .add) a b = .add a b ∧ (Instr.add a b).regOperands = [a, b]) ∧
    (decode opc (opc.core .prn) a b = .prn a ∧ (Instr.prn a).regOperands = [a]) ∧
    (decode opc (opc.core .pop) a b = .pop a ∧ (Instr.pop a).regOperands = [a]) ∧
    (decode opc (opc.core .push) a b = .push a ∧ (Instr.push a).regOperands = [a]) ∧
    (decode opc (opc.core .call) a b = .call a ∧ (Instr.call a).regOperands = [a]) ∧
    (decode opc (opc.core .hlt) a b = .hlt ∧ Instr.hlt.regOperands = []) ∧
    (decode opc (opc.core .ret) a b = .ret ∧ Instr.ret.regOperands = [])

/-- R68: all 8 bits are compared. A byte equal to one of the nine values is that mnemonic, under a legal table; any
other byte is ILLEGAL and raises IllegalInstruction. -/
def Obligations.DecoderMatchesAllEightBits : Prop :=
  ∀ (opc : Opc) (ir a b : Byte), opcLegal opc = true →
    (∀ m, opc.core m = ir → (decode opc ir a b).opClass = .core m) ∧
    ((∀ m, opc.core m ≠ ir) → (decode opc ir a b).isCore = false ∧
      ∀ s, ∃ t, exec (decode opc ir a b) s = .next t ∧ t.run = .faulted ∧
        t.fr = some { cause := 0x01, pc := s.pc, ir := s.ir, info := 0 })

/-! ### The step -/

/-- R78 and R80: a running CORE's step latches the three bytes at `pc`, `pc + 1` and `pc + 2`, whatever the
instruction, and runs the instruction decoded from them. -/
def Obligations.StepRunsTheDecodedInstruction : Prop :=
  (∀ (opc : Opc) (s : State), opcLegal opc = true → s.run = .running →
    stepWith opc s =
      exec (decode opc (s.mem.read s.pc) (s.mem.read (s.pc + 1)) (s.mem.read (s.pc + 2)))
        { s with ir := s.mem.read s.pc, opA := s.mem.read (s.pc + 1), opB := s.mem.read (s.pc + 2) }) ∧
  (∀ s, step s = stepWith defaultOpc s)

/-- A step in in_reset, halted or faulted changes nothing. That it answers the same state, and not a stop, is the
model's reading of R77 and R86 (log entry 5). -/
def Obligations.StoppedCoreStepChangesNothing : Prop :=
  ∀ (opc : Opc) (s : State), opcLegal opc = true → s.run ≠ .running → stepWith opc s = .next s

/-- A running CORE's step always answers a next state: no instruction blocks, and no step is refused. -/
def Obligations.RunningStepAlwaysAnswersNext : Prop :=
  ∀ (opc : Opc) (s : State), opcLegal opc = true → s.run = .running → ∃ t, stepWith opc s = .next t

/-- R85: the step of a running CORE is the reference composition, written from its pseudocode. -/
def Obligations.StepAgreesWithReferenceComposition : Prop :=
  ∀ (opc : Opc) (s : State), opcLegal opc = true → s.run = .running →
    stepWith opc s = .next (referenceStep opc s)

/-- What the latches held before the fetch changes nothing of a running CORE's step (10_state.md, R26 and R44: no rule
reads them before the fetch overwrites them). -/
def Obligations.EarlierLatchValuesDoNotMatter : Prop :=
  ∀ (opc : Opc) (s : State) (x y z : Byte), opcLegal opc = true → s.run = .running →
    ∃ t, stepWith opc s = .next t ∧ stepWith opc { s with ir := x, opA := y, opB := z } = .next t

/-- The footprint of a step (20_memory.md, R46 and R55): two memories that agree where the step reads give the same
next state apart from memory; the step writes the same byte where it writes, and no other address changes. -/
def Obligations.StepTouchesOnlyItsAccesses : Prop :=
  ∀ (opc : Opc) (s : State) (m : Memory), opcLegal opc = true → s.run = .running →
    (∀ a, Access.read a ∈ accesses opc s → m.read a = s.mem.read a) →
    ∃ t u, stepWith opc s = .next t ∧ stepWith opc { s with mem := m } = .next u ∧
      u = { t with mem := u.mem } ∧
      (∀ a, Access.write a ∈ accesses opc s → u.mem.read a = t.mem.read a) ∧
      (∀ a, Access.write a ∉ accesses opc s → t.mem.read a = s.mem.read a ∧ u.mem.read a = m.read a)

/-- R83: the operand advance is `L = IR[7:6] + 1` modulo 256 after every instruction but CALL and RET, HLT included; a
faulting instruction performs none, and CALL and RET set the pc themselves. -/
def Obligations.ProgramCounterAdvancesByLength : Prop :=
  ∀ (opc : Opc) (s : State), opcLegal opc = true → s.run = .running →
    ∃ t, stepWith opc s = .next t ∧
      (t.run = .faulted → t.pc = s.pc) ∧
      (t.run ≠ .faulted → s.mem.read s.pc ≠ opc.core .call → s.mem.read s.pc ≠ opc.core .ret →
        t.pc.toNat = (s.pc.toNat + ((s.mem.read s.pc).toNat / 64 + 1)) % 256) ∧
      (t.run ≠ .faulted → s.mem.read s.pc = opc.core .call →
        ∃ i, s.mem.read (s.pc + 1) = regByte i ∧ t.pc = if i = 7 then s.reg 7 - 1 else s.reg i) ∧
      (s.mem.read s.pc = opc.core .ret → t.pc = s.mem.read (s.reg 7))

/-! ### The nine instructions: result, completion and frame -/

/-- R87: HLT halts, advances the pc by 1 modulo 256, and changes nothing else. -/
def Obligations.HltHaltsAndAdvances : Prop :=
  EncodedAs .hlt 1 (fun _ _ => .hlt) ∧
  ∀ s : State, ∃ t, exec .hlt s = .next t ∧
    t.run = .halted ∧ t.pc.toNat = (s.pc.toNat + 1) % 256 ∧
    (∀ k, t.reg k = s.reg k) ∧ (∀ a, t.mem.read a = s.mem.read a) ∧ t.out = s.out ∧ SameControl s t

/-- R88: PRN appends the register's byte to the output, advances the pc by 2, and changes nothing else; a bad register
operand raises BadRegister and emits nothing. -/
def Obligations.PrnEmitsTheRegister : Prop :=
  EncodedAs .prn 2 (fun a _ => .prn a) ∧
  (∀ (s : State) (i : RegIdx), ∃ t, exec (.prn (regByte i)) s = .next t ∧
    t.out = s.out ++ [s.reg i] ∧ t.pc.toNat = (s.pc.toNat + 2) % 256 ∧
    (∀ k, t.reg k = s.reg k) ∧ (∀ a, t.mem.read a = s.mem.read a) ∧ t.run = s.run ∧ SameControl s t) ∧
  (∀ (s : State) (a : Byte), 7 < a.toNat → RaisesBadRegister s a (exec (.prn a) s))

/-- R93: LDI writes the immediate to its register, advances the pc by 3, and changes nothing else; the immediate is
never checked, and a bad register operand raises BadRegister. -/
def Obligations.LdiWritesTheImmediate : Prop :=
  EncodedAs .ldi 3 (fun a b => .ldi a b) ∧
  (∀ (s : State) (i : RegIdx) (imm : Byte), ∃ t, exec (.ldi (regByte i) imm) s = .next t ∧
    (∀ k, t.reg k = if k = i then imm else s.reg k) ∧ t.pc.toNat = (s.pc.toNat + 3) % 256 ∧
    (∀ a, t.mem.read a = s.mem.read a) ∧ t.out = s.out ∧ t.run = s.run ∧ SameControl s t) ∧
  (∀ (s : State) (a imm : Byte), 7 < a.toNat → RaisesBadRegister s a (exec (.ldi a imm) s))

/-- R94: MUL writes the low 8 bits of the product to its first register, advances the pc by 3, and changes nothing
else; a bad A raises BadRegister, else a bad B. -/
def Obligations.MulMultipliesModulo256 : Prop :=
  EncodedAs .mul 3 (fun a b => .mul a b) ∧
  (∀ (s : State) (i j : RegIdx), ∃ t, exec (.mul (regByte i) (regByte j)) s = .next t ∧
    (t.reg i).toNat = (s.reg i).toNat * (s.reg j).toNat % 256 ∧ (∀ k, k ≠ i → t.reg k = s.reg k) ∧
    t.pc.toNat = (s.pc.toNat + 3) % 256 ∧
    (∀ a, t.mem.read a = s.mem.read a) ∧ t.out = s.out ∧ t.run = s.run ∧ SameControl s t) ∧
  (∀ (s : State) (a b : Byte), 7 < a.toNat → RaisesBadRegister s a (exec (.mul a b) s)) ∧
  (∀ (s : State) (i : RegIdx) (b : Byte), 7 < b.toNat → RaisesBadRegister s b (exec (.mul (regByte i) b) s))

/-- R95: ADD writes the low 8 bits of the sum to its first register, advances the pc by 3, and changes nothing else; a
bad A raises BadRegister, else a bad B. -/
def Obligations.AddAddsModulo256 : Prop :=
  EncodedAs .add 3 (fun a b => .add a b) ∧
  (∀ (s : State) (i j : RegIdx), ∃ t, exec (.add (regByte i) (regByte j)) s = .next t ∧
    (t.reg i).toNat = ((s.reg i).toNat + (s.reg j).toNat) % 256 ∧ (∀ k, k ≠ i → t.reg k = s.reg k) ∧
    t.pc.toNat = (s.pc.toNat + 3) % 256 ∧
    (∀ a, t.mem.read a = s.mem.read a) ∧ t.out = s.out ∧ t.run = s.run ∧ SameControl s t) ∧
  (∀ (s : State) (a b : Byte), 7 < a.toNat → RaisesBadRegister s a (exec (.add a b) s)) ∧
  (∀ (s : State) (i : RegIdx) (b : Byte), 7 < b.toNat → RaisesBadRegister s b (exec (.add (regByte i) b) s))

/-- R99: POP writes the byte at SP to its register after SP has gone up by one, so POP r7 ends with the popped byte; the
pc advances by 2, and nothing else changes. -/
def Obligations.PopLoadsFromTheStack : Prop :=
  EncodedAs .pop 2 (fun a _ => .pop a) ∧
  (∀ (s : State) (i : RegIdx), ∃ t, exec (.pop (regByte i)) s = .next t ∧
    t.reg i = s.mem.read (s.reg 7) ∧ (i ≠ 7 → (t.reg 7).toNat = ((s.reg 7).toNat + 1) % 256) ∧
    (∀ k, k ≠ i → k ≠ 7 → t.reg k = s.reg k) ∧ t.pc.toNat = (s.pc.toNat + 2) % 256 ∧
    (∀ a, t.mem.read a = s.mem.read a) ∧ t.out = s.out ∧ t.run = s.run ∧ SameControl s t) ∧
  (∀ (s : State) (a : Byte), 7 < a.toNat → RaisesBadRegister s a (exec (.pop a) s))

/-- R100: PUSH lowers SP by one and stores the register, read before SP moved, at the new SP; the pc advances by 2, and
no other byte of memory and nothing else changes. -/
def Obligations.PushStoresToTheStack : Prop :=
  EncodedAs .push 2 (fun a _ => .push a) ∧
  (∀ (s : State) (i : RegIdx), ∃ t, exec (.push (regByte i)) s = .next t ∧
    t.mem.read s.pushAddr = s.reg i ∧ (∀ a, a ≠ s.pushAddr → t.mem.read a = s.mem.read a) ∧
    t.reg 7 = s.pushAddr ∧ s.pushAddr.toNat = ((s.reg 7).toNat + 255) % 256 ∧
    (∀ k, k ≠ 7 → t.reg k = s.reg k) ∧ t.pc.toNat = (s.pc.toNat + 2) % 256 ∧
    t.out = s.out ∧ t.run = s.run ∧ SameControl s t) ∧
  (∀ (s : State) (a : Byte), 7 < a.toNat → RaisesBadRegister s a (exec (.push a) s))

/-- R101: CALL pushes the address after its two bytes and goes to the address its register holds after the push, so
CALL r7 goes to the new SP; no other byte of memory and nothing else changes. -/
def Obligations.CallPushesTheReturnAddress : Prop :=
  EncodedAs .call 2 (fun a _ => .call a) ∧
  (∀ (s : State) (i : RegIdx), ∃ t, exec (.call (regByte i)) s = .next t ∧
    (t.mem.read s.pushAddr).toNat = (s.pc.toNat + 2) % 256 ∧
    (∀ a, a ≠ s.pushAddr → t.mem.read a = s.mem.read a) ∧
    t.reg 7 = s.pushAddr ∧ s.pushAddr.toNat = ((s.reg 7).toNat + 255) % 256 ∧
    (∀ k, k ≠ 7 → t.reg k = s.reg k) ∧ t.pc = t.reg i ∧
    t.out = s.out ∧ t.run = s.run ∧ SameControl s t) ∧
  (∀ (s : State) (a : Byte), 7 < a.toNat → RaisesBadRegister s a (exec (.call a) s))

/-- R102: RET pops the pc from the stack, with no operand advance, and changes nothing but the pc and SP. -/
def Obligations.RetPopsTheProgramCounter : Prop :=
  EncodedAs .ret 1 (fun _ _ => .ret) ∧
  ∀ s : State, ∃ t, exec .ret s = .next t ∧
    t.pc = s.mem.read (s.reg 7) ∧ (t.reg 7).toNat = ((s.reg 7).toNat + 1) % 256 ∧
    (∀ k, k ≠ 7 → t.reg k = s.reg k) ∧ (∀ a, t.mem.read a = s.mem.read a) ∧
    t.out = s.out ∧ t.run = s.run ∧ SameControl s t

/-! ### Faults -/

/-- R105 and R109: each of the twelve ILLEGAL rows (the eleven reserved bytes and any other byte) enters `faulted` with
cause 0x01 and info 0, and changes nothing else. -/
def Obligations.IllegalBytesRaiseIllegalInstruction : Prop :=
  ∀ (i : Instr) (s : State),
    (i = .cmpReserved ∨ i = .jmpReserved ∨ i = .jeqReserved ∨ i = .jneReserved ∨ i = .andReserved ∨
      i = .orReserved ∨ i = .xorReserved ∨ i = .notReserved ∨ i = .shlReserved ∨ i = .shrReserved ∨
      i = .modReserved ∨ ∃ ir, i = .anyOther ir) →
    i.isCore = false ∧
    ∃ t, exec i s = .next t ∧ t.run = .faulted ∧
      t.fr = some { cause := 0x01, pc := s.pc, ir := s.ir, info := 0 } ∧ SameBesidesFault s t ∧ SameLatches s t

/-- R82 and R106: the first operand byte above 7, A before B, makes any instruction that uses it as a register index
raise BadRegister, with nothing else written. -/
def Obligations.FirstBadOperandRaisesBadRegister : Prop :=
  ∀ (i : Instr) (s : State) (before : List RegIdx) (v : Byte) (after : List Byte),
    i.regOperands = before.map regByte ++ v :: after → 7 < v.toNat →
    ∃ t, exec i s = .next t ∧ t.run = .faulted ∧
      t.fr = some { cause := 0x02, pc := s.pc, ir := s.ir, info := v } ∧ SameBesidesFault s t ∧ SameLatches s t

/-- R108 and R109: with a fault pending at the pc (IllegalInstruction first, then BadRegister for A, then for B), the
step enters `faulted` with its record and writes nothing else; with none pending, the step enters no fault. -/
def Obligations.FaultingStepIsPrecise : Prop :=
  ∀ (opc : Opc) (s : State), opcLegal opc = true → s.run = .running →
    (∀ r, s.pendingFault opc = some r →
      r.pc = s.pc ∧ r.ir = s.mem.read s.pc ∧
      ((r.cause = 0x01 ∧ r.info = 0 ∧ ∀ m, opc.core m ≠ r.ir) ∨
        (r.cause = 0x02 ∧ 7 < r.info.toNat ∧ (∃ m, opc.core m = r.ir) ∧
          (r.info = s.mem.read (s.pc + 1) ∨
            (r.info = s.mem.read (s.pc + 2) ∧ (s.mem.read (s.pc + 1)).toNat ≤ 7)))) ∧
      ∃ t, stepWith opc s = .next t ∧ t.run = .faulted ∧ t.fr = some r ∧ SameBesidesFault s t) ∧
    (s.pendingFault opc = none → ∃ t, stepWith opc s = .next t ∧ t.safe ∧ t.fr = s.fr)

/-! ### The ALU, the stack pointer controller and the flags -/

/-- R90 and R91: MUL and ADD write the low 8 bits of the exact result, both operands read before the write; ALU_NONE and
the eight reserved selectors change no state, and no instruction selects a reserved one. -/
def Obligations.AluSelectorsWriteOnlyMulAndAdd : Prop :=
  (∀ (s : State) (i j k : RegIdx),
    ((s.alu .mul i j).reg k).toNat = (if k = i then (s.reg i).toNat * (s.reg j).toNat % 256 else (s.reg k).toNat) ∧
    ((s.alu .add i j).reg k).toNat = (if k = i then ((s.reg i).toNat + (s.reg j).toNat) % 256 else (s.reg k).toNat)) ∧
  (∀ (s : State) (i j : RegIdx) (sel : AluSel), sel ≠ .mul → sel ≠ .add → s.alu sel i j = s) ∧
  (∀ m, (controls m).alu = .none ∨ (controls m).alu = .mul ∨ (controls m).alu = .add)

/-- R96 and R97: a push lowers SP by one modulo 256 and writes at the new SP; a pop reads at SP and raises it by one
modulo 256. Nothing else changes, and neither can fault. -/
def Obligations.StackPrimitivesMoveByOne : Prop :=
  ∀ (s : State) (v : Byte),
    (((s.push v).reg 7).toNat = ((s.reg 7).toNat + 255) % 256 ∧ (∀ k, k ≠ 7 → (s.push v).reg k = s.reg k) ∧
      (s.push v).mem.read ((s.push v).reg 7) = v ∧
      (∀ a, a ≠ (s.push v).reg 7 → (s.push v).mem.read a = s.mem.read a) ∧
      s.push v = { s with regs := (s.push v).regs, mem := (s.push v).mem }) ∧
    (s.pop.1 = s.mem.read (s.reg 7) ∧ (s.pop.2.reg 7).toNat = ((s.reg 7).toNat + 1) % 256 ∧
      (∀ k, k ≠ 7 → s.pop.2.reg k = s.reg k) ∧ s.pop.2 = { s with regs := s.pop.2.regs })

/-- R92, and R20's sentence that no instruction reads or writes FL: every instruction completes, leaves FL as it was,
and does the same whatever FL holds. -/
def Obligations.FlagsRegisterIsNeitherReadNorWritten : Prop :=
  (∀ (s : State) (sel : AluSel) (i j : RegIdx) (v : Byte), (s.alu sel i j).fl = s.fl ∧
    State.alu { s with fl := v } sel i j = { s.alu sel i j with fl := v }) ∧
  (∀ (i : Instr) (s : State) (v : Byte), ∃ t, exec i s = .next t ∧ t.fl = s.fl ∧
    exec i { s with fl := v } = .next { t with fl := v })

/-! ### Whole-machine rules -/

/-- R24: PRN appends one byte to OUT, and nothing else changes it: no other instruction, and no host action but
Reset. -/
def Obligations.OnlyPrnChangesTheOutput : Prop :=
  (∀ (i : Instr) (s t : State), exec i s = .next t →
    t.out = s.out ∨ ∃ k, i = .prn (regByte k) ∧ t.out = s.out ++ [s.reg k]) ∧
  (∀ (i : RegIdx) (s : State), ∃ t, exec (.prn (regByte i)) s = .next t ∧ t.out = s.out ++ [s.reg i]) ∧
  (∀ (a : HostAction) (s t : State), a ≠ .reset → hostAct a s = .next t → t.out = s.out)

/-- Memory is written by PUSH and CALL alone, at one address, the stack pointer less one (20_memory.md, R46). -/
def Obligations.OnlyPushAndCallWriteMemory : Prop :=
  ∀ (i : Instr) (s t : State) (a : Byte), exec i s = .next t → t.mem.read a ≠ s.mem.read a →
    a = s.pushAddr ∧ ∃ k, i = .push (regByte k) ∨ i = .call (regByte k)

/-- The stack pointer changes only under PUSH, CALL, POP and RET, or where the first operand names register 7
(10_state.md, R16 and R17). -/
def Obligations.StackPointerChangesOnlyByStackOrName : Prop :=
  ∀ (i : Instr) (s t : State), exec i s = .next t → t.reg 7 ≠ s.reg 7 →
    (∃ k, i = .push (regByte k) ∨ i = .call (regByte k) ∨ i = .pop (regByte k)) ∨ i = .ret ∨
    (∃ x, i = .ldi (regByte 7) x ∨ i = .mul (regByte 7) x ∨ i = .add (regByte 7) x)

/-- A running CORE halts at HLT and nowhere else (70_reset_and_hazards.md section 3, 40_cycle.md). -/
def Obligations.OnlyHltHalts : Prop :=
  ∀ (opc : Opc) (s t : State), opcLegal opc = true → s.run = .running → stepWith opc s = .next t →
    (t.run = .halted ↔ s.mem.read s.pc = opc.core .hlt)

/-- halted and faulted are final: no step and no host action but Reset leaves them or changes anything (10_state.md,
R22). That a step there answers the same state is log entry 5. -/
def Obligations.FinalStatesAreLeftOnlyByReset : Prop :=
  ∀ (opc : Opc) (s t : State) (e : Event), s.run = .halted ∨ s.run = .faulted → event opc e s = .next t →
    (e = .host .reset ∧ t = State.reset) ∨ (e = .instruction ∧ t = s)

/-- A run that begins in halted or faulted and holds no Reset changes nothing, however long it is (60_exceptions.md,
R119). -/
def Obligations.EndedRunKeepsItsState : Prop :=
  ∀ (opc : Opc) (s t : State) (es : List Event), s.run = .halted ∨ s.run = .faulted →
    Event.host .reset ∉ es → runEvents opc es s = .next t → t = s

/-- A push followed at once by a pop gives the byte back and restores SP (95_test_vectors.md W3). -/
def Obligations.PushThenPopGivesTheByteBack : Prop :=
  ∀ (s : State) (i j : RegIdx), ∃ t u, exec (.push (regByte i)) s = .next t ∧ exec (.pop (regByte j)) t = .next u ∧
    u.reg j = s.reg i ∧ (j ≠ 7 → u.reg 7 = s.reg 7) ∧ (∀ k, k ≠ j → k ≠ 7 → u.reg k = s.reg k)

/-- A CALL whose target executes RET at once comes back to the address after the CALL, with SP restored
(95_test_vectors.md W4). -/
def Obligations.CallThenRetComesBack : Prop :=
  ∀ (s : State) (i : RegIdx), ∃ t u, exec (.call (regByte i)) s = .next t ∧ exec .ret t = .next u ∧
    u.pc.toNat = (s.pc.toNat + 2) % 256 ∧ (∀ k, u.reg k = s.reg k)

/-- A PUSH that overwrites its own bytes still pushes the register its latched operand names, and the next fetch sees
the byte it wrote, in whichever of its three latches that byte falls (20_memory.md, R59, an inference of the spec). -/
def Obligations.PushOverItsOwnBytesIsSeenByTheNextFetch : Prop :=
  ∀ (opc : Opc) (s : State) (i : RegIdx), opcLegal opc = true → s.run = .running →
    s.nextInstr opc = .push (regByte i) →
    ∃ t, stepWith opc s = .next t ∧ t.mem.read s.pushAddr = s.reg i ∧ t.pc = s.pc + 2 ∧
      (s.pushAddr = s.pc + 2 → t.fetch.ir = s.reg i) ∧ (s.pushAddr ≠ s.pc + 2 → t.fetch.ir = s.mem.read (s.pc + 2)) ∧
      (s.pushAddr = s.pc + 3 → t.fetch.opA = s.reg i) ∧ (s.pushAddr ≠ s.pc + 3 → t.fetch.opA = s.mem.read (s.pc + 3)) ∧
      (s.pushAddr = s.pc + 4 → t.fetch.opB = s.reg i) ∧ (s.pushAddr ≠ s.pc + 4 → t.fetch.opB = s.mem.read (s.pc + 4))

/-! ### The canonical memory and the invariant -/

/-- Equal memories are equal data: two memories in canonical form that read alike are the same list. -/
def Obligations.MemoriesThatReadAlikeAreEqual : Prop :=
  ∀ m n : Memory, Memory.wf m → Memory.wf n → (∀ a, m.read a = n.read a) → m = n

/-- The invariant holds right after reset, under every table. -/
def Obligations.InvariantHoldsAtReset : Prop := ∀ opc : Opc, Inv opc State.reset

/-- Every step keeps the invariant: canonical memory, FL at 0, FR the record of the fault at the pc exactly in
`faulted`, and the reset values in in_reset. -/
def Obligations.StepKeepsInvariant : Prop :=
  (∀ s t : State, Inv defaultOpc s → step s = .next t → Inv defaultOpc t) ∧
  (∀ (opc : Opc) (s t : State), Inv opc s → stepWith opc s = .next t → Inv opc t)

/-- Every sequence of steps and host actions keeps the invariant. -/
def Obligations.EveryRunWithItsHostKeepsInvariant : Prop :=
  ∀ (opc : Opc) (es : List Event) (s t : State), Inv opc s → runEvents opc es s = .next t → Inv opc t
end

