-- ==== Sys2Proof/Laws/Decode.lean ====
section
/-!
SUPPORT. What the decoder answers: which class a byte has, and how `decode` and `encode` meet.
-/

namespace Sys2Proof

theorem Mnemonic.mem_all (m : Mnemonic) : m ∈ Mnemonic.all := by cases m <;> decide

theorem ReservedMnemonic.mem_all (r : ReservedMnemonic) : r ∈ ReservedMnemonic.all := by cases r <;> decide

/-- R70's three conditions, as propositions. -/
theorem opcLegal_iff (opc : Opc) :
    opcLegal opc = true ↔
      (∀ m, operandCount (opc.core m) = requiredCount m) ∧
      (∀ m n, opc.core m = opc.core n → m = n) ∧
      (∀ m r, opc.reserved r ≠ opc.core m) := by
  simp only [opcLegal, Opc.namesReserved, Bool.and_eq_true, List.all_eq_true, Mnemonic.mem_all, forall_const,
    beq_iff_eq, Bool.or_eq_true, bne_iff_ne, ne_eq, Bool.not_eq_true', List.any_eq_false,
    ReservedMnemonic.mem_all, and_assoc]
  refine and_congr Iff.rfl (and_congr ?_ Iff.rfl)
  exact forall_congr' fun m => forall_congr' fun n => by tauto

theorem reservedDistinct_iff (opc : Opc) :
    reservedDistinct opc = true ↔ ∀ r q, opc.reserved r = opc.reserved q → r = q := by
  simp only [reservedDistinct, List.all_eq_true, ReservedMnemonic.mem_all, forall_const, Bool.or_eq_true,
    bne_iff_ne, ne_eq, beq_iff_eq]
  exact forall_congr' fun m => forall_congr' fun n => by tauto

/-- A search in a list that holds everything, for an injective key, finds the one that has the key. -/
theorem find?_key {α : Type} {l : List α} {key : α → Byte} (hall : ∀ x, x ∈ l)
    (hinj : ∀ x y, key x = key y → x = y) (x : α) : (l.find? fun y => key y == key x) = some x := by
  cases h : l.find? fun y => key y == key x with
  | none => simpa using List.find?_eq_none.1 h x (hall x)
  | some y => rw [hinj y x (by simpa using List.find?_some h)]

theorem decodeClass_core {opc : Opc} (h : opcLegal opc = true) (m : Mnemonic) :
    decodeClass opc (opc.core m) = .core m := by
  simp only [decodeClass, find?_key Mnemonic.mem_all ((opcLegal_iff opc).1 h).2.1 m]

/-- A byte of the class `core m` is the opcode of `m` (R68). -/
theorem core_of_decodeClass {opc : Opc} {ir : Byte} {m : Mnemonic} (h : decodeClass opc ir = .core m) :
    opc.core m = ir := by
  unfold decodeClass at h
  split at h
  · next n hn => cases h; simpa using List.find?_some hn
  · split at h <;> cases h

theorem reserved_of_decodeClass {opc : Opc} {ir : Byte} {r : ReservedMnemonic}
    (h : decodeClass opc ir = .reserved r) : opc.reserved r = ir := by
  unfold decodeClass at h
  split at h
  · cases h
  · split at h
    · next q hq => cases h; simpa using List.find?_some hq
    · cases h

theorem decodeClass_reserved {opc : Opc} (h : opcLegal opc = true) (hd : reservedDistinct opc = true)
    (r : ReservedMnemonic) : decodeClass opc (opc.reserved r) = .reserved r := by
  have hno : (Mnemonic.all.find? fun m => opc.core m == opc.reserved r) = none := by
    refine List.find?_eq_none.2 fun m _ => ?_
    simpa only [beq_iff_eq] using (((opcLegal_iff opc).1 h).2.2 m r).symm
  simp only [decodeClass, hno, find?_key ReservedMnemonic.mem_all ((reservedDistinct_iff opc).1 hd) r]

theorem namesCore_iff (opc : Opc) (ir : Byte) : opc.namesCore ir = true ↔ ∃ m, opc.core m = ir := by
  simp [Opc.namesCore, Mnemonic.mem_all]

theorem namesReserved_iff (opc : Opc) (ir : Byte) : opc.namesReserved ir = true ↔ ∃ r, opc.reserved r = ir := by
  simp [Opc.namesReserved, ReservedMnemonic.mem_all]

/-- A byte is of the class `other` exactly when the tables do not name it. -/
theorem decodeClass_other_iff (opc : Opc) (ir : Byte) :
    decodeClass opc ir = .other ↔ opc.namesCore ir = false ∧ opc.namesReserved ir = false := by
  unfold decodeClass Opc.namesCore Opc.namesReserved
  split
  · next m hm =>
    simp only [reduceCtorEq, false_iff, not_and]
    intro h
    exact absurd (List.find?_some hm) (List.any_eq_false.1 h m (Mnemonic.mem_all m))
  · next hm =>
    have h1 : (Mnemonic.all.any fun m => opc.core m == ir) = false :=
      List.any_eq_false.2 fun m hmem => List.find?_eq_none.1 hm m hmem
    split
    · next r hr =>
      simp only [reduceCtorEq, false_iff, not_and]
      intro _ h
      exact absurd (List.find?_some hr) (List.any_eq_false.1 h r (ReservedMnemonic.mem_all r))
    · next hr =>
      exact iff_of_true rfl ⟨h1, List.any_eq_false.2 fun r hmem => List.find?_eq_none.1 hr r hmem⟩

/-- The class of a decoded instruction is the class of its opcode byte. -/
@[simp] theorem opClass_decode (opc : Opc) (ir a b : Byte) : (decode opc ir a b).opClass = decodeClass opc ir := by
  unfold decode classInstr
  split
  · next m h => rw [h]; cases m <;> rfl
  · next r h => rw [h]; cases r <;> rfl
  · next h => rw [h]; rfl

/-- A byte that is none of the nine opcodes decodes to no instruction of the nine (R68). -/
theorem isCore_decode_iff (opc : Opc) (ir a b : Byte) :
    (decode opc ir a b).isCore = true ↔ ∃ m, opc.core m = ir := by
  unfold Instr.isCore
  rw [opClass_decode]
  constructor
  · intro h
    split at h
    · next m hm => exact ⟨m, core_of_decodeClass hm⟩
    · cases h
    · cases h
  · rintro ⟨m, hm⟩
    cases hc : decodeClass opc ir with
    | core n => rfl
    | reserved r =>
      exfalso
      unfold decodeClass at hc
      split at hc
      · cases hc
      · next h => simpa [hm] using List.find?_eq_none.1 h m (Mnemonic.mem_all m)
    | other =>
      have := ((decodeClass_other_iff opc ir).1 hc).1
      rw [(namesCore_iff opc ir).2 ⟨m, hm⟩] at this
      cases this

/-- The nine instructions decode from their opcodes under every legal table. -/
theorem decode_core {opc : Opc} (h : opcLegal opc = true) (m : Mnemonic) (a b : Byte) :
    decode opc (opc.core m) a b = coreInstr m a b := by
  unfold decode
  rw [decodeClass_core h m]
  rfl

theorem defaultOpc_legal : opcLegal defaultOpc = true := by decide

theorem defaultOpc_reservedDistinct : reservedDistinct defaultOpc = true := by decide

end Sys2Proof
end

