-- ==== Sys2Proof/Laws/Memory.lean ====
section
/-!
SUPPORT. The laws of one byte of memory: a read after a write, the frame of a write, the canonical form kept by every
operation, and equal memories being equal data.
-/

namespace Sys2Proof.Machine

theorem cellAt_putCell (m : Memory) (k j : Nat) (v : Byte) :
    cellAt (putCell m k v) j = if k = j then v else cellAt m j := by
  induction m with
  | nil => simp [putCell, cellAt]
  | cons c rest ih =>
    obtain ⟨a, w⟩ := c
    simp only [putCell]
    split
    · simp [cellAt]
    · split
      · next hk => subst hk; by_cases h : k = j <;> simp [cellAt, h]
      · simp only [cellAt, ih]; split <;> split <;> simp_all

theorem cellAt_filter (m : Memory) (k j : Nat) :
    cellAt (m.filter fun c => c.1 != k) j = if k = j then 0 else cellAt m j := by
  induction m with
  | nil => simp [cellAt]
  | cons c rest ih =>
    obtain ⟨a, w⟩ := c
    by_cases h : a = k
    · subst h; simp only [bne_self_eq_false, Bool.false_eq_true, not_false_eq_true, List.filter_cons_of_neg, ih, cellAt]
      split <;> simp_all
    · simp only [cellAt, List.filter_cons, bne_iff_ne, ne_eq, h, not_false_eq_true, if_true, ih]
      split <;> split <;> simp_all

/-- A read after a write: the byte written at its address, and every other address as before (R57). -/
@[simp] theorem Memory.read_write (m : Memory) (a v b : Byte) :
    (m.write a v).read b = if b = a then v else m.read b := by
  have key : (a.toNat = b.toNat) ↔ (b = a) := by rw [BitVec.toNat_inj, eq_comm]
  unfold Memory.write Memory.read
  split
  · next h => simp only [cellAt_filter, key, h]
  · simp only [cellAt_putCell, key]

/-- Every address of an empty memory reads as the reset contents (R41). -/
@[simp] theorem Memory.read_nil (a : Byte) : Memory.read [] a = 0 := rfl

theorem mem_putCell {m : Memory} {k : Nat} {v : Byte} {c : Host.Cell} (h : c ∈ putCell m k v) :
    c = (k, v) ∨ c ∈ m := by
  induction m with
  | nil => simpa [putCell] using h
  | cons d rest ih =>
    obtain ⟨a, w⟩ := d
    simp only [putCell] at h
    split at h
    · simpa using h
    · split at h
      · simp only [List.mem_cons] at h ⊢; tauto
      · simp only [List.mem_cons] at h ⊢
        rcases h with h | h
        · tauto
        · rcases ih h with h | h <;> tauto

theorem pairwise_putCell {m : Memory} (h : m.Pairwise fun c d => c.1 < d.1) (k : Nat) (v : Byte) :
    (putCell m k v).Pairwise fun c d => c.1 < d.1 := by
  induction m with
  | nil => simp [putCell]
  | cons d rest ih =>
    obtain ⟨a, w⟩ := d
    obtain ⟨hd, hr⟩ := List.pairwise_cons.1 h
    simp only [putCell]
    split
    · next hk =>
      refine List.pairwise_cons.2 ⟨fun c hc => ?_, h⟩
      rcases List.mem_cons.1 hc with rfl | hc
      · exact hk
      · exact Nat.lt_trans hk (hd c hc)
    · split
      · next hk => subst hk; exact List.pairwise_cons.2 ⟨hd, hr⟩
      · refine List.pairwise_cons.2 ⟨fun c hc => ?_, ih hr⟩
        rcases mem_putCell hc with rfl | hc
        · show a < k; omega
        · exact hd c hc

/-- Every write keeps the canonical form. -/
theorem Memory.write_wf {m : Memory} (h : Memory.wf m) (a v : Byte) : Memory.wf (m.write a v) := by
  obtain ⟨hs, hc⟩ := h
  unfold Memory.write
  split
  · exact ⟨hs.filter _, fun c hm => hc c (List.mem_filter.1 hm).1⟩
  · next hv =>
    refine ⟨pairwise_putCell hs _ _, fun c hm => ?_⟩
    rcases mem_putCell hm with rfl | hm
    · exact ⟨a.isLt, hv⟩
    · exact hc c hm

theorem Memory.wf_nil : Memory.wf [] := ⟨List.Pairwise.nil, by simp⟩

/-- Storing bytes keeps the canonical form. -/
theorem storeBytes_wf {m : Memory} (h : Memory.wf m) (a : Byte) (bytes : List Byte) :
    Memory.wf (storeBytes m a bytes) := by
  induction bytes generalizing m a with
  | nil => exact h
  | cons v rest ih => exact ih (Memory.write_wf h a v) (a + 1)

/-- The byte a listed cell holds is what its address reads as. -/
theorem cellAt_of_mem {m : Memory} (h : m.Pairwise fun c d => c.1 < d.1) {c : Host.Cell} (hc : c ∈ m) :
    cellAt m c.1 = c.2 := by
  induction m with
  | nil => simp at hc
  | cons d rest ih =>
    obtain ⟨a, w⟩ := d
    obtain ⟨hd, hr⟩ := List.pairwise_cons.1 h
    rcases List.mem_cons.1 hc with rfl | hc
    · simp [cellAt]
    · have : a ≠ c.1 := Nat.ne_of_lt (hd c hc)
      simp [cellAt, this, ih hr hc]

/-- An address that reads as something other than 0 is listed. -/
theorem mem_of_cellAt {m : Memory} {k : Nat} (h : cellAt m k ≠ 0) : (k, cellAt m k) ∈ m := by
  induction m with
  | nil => exact absurd rfl h
  | cons d rest ih =>
    obtain ⟨a, w⟩ := d
    simp only [cellAt] at h ⊢
    split
    · next hk => subst hk; simp
    · next hk => simp only [hk, if_false] at h; exact List.mem_cons_of_mem _ (ih h)

end Sys2Proof.Machine
end

