-- ==== Sys2Proof/Laws/State.lean ====
section
/-!
SUPPORT. One lemma per field per named update of State, so that no later proof unfolds a record update.
-/

namespace Sys2Proof.Machine

/-- The stack pointer is register 7 (R16). -/
@[simp] theorem State.sp_eq (s : State) : s.sp = s.reg 7 := rfl

@[simp] theorem State.pushAddr_eq (s : State) : s.pushAddr = s.reg 7 - 1 := rfl

@[simp] theorem State.returnAddr_eq (s : State) : s.returnAddr = s.pc + 2 := rfl

/-- A register depends on the register file alone. -/
theorem State.reg_congr {s t : State} (h : t.regs = s.regs) (i : RegIdx) : t.reg i = s.reg i := by
  simp only [State.reg, h]

/-- A state written out with the registers of `s` has the registers of `s`. -/
@[simp] theorem State.mk_reg (s : State) (pc fl : Byte) (run : RunState) (mem : Memory) (out : List Byte)
    (fr : Option FaultRecord) (la ir a b : Byte) (k : RegIdx) :
    (State.mk s.regs pc fl run mem out fr la ir a b).reg k = s.reg k := rfl

/-! ### `setReg` -/

@[simp] theorem State.setReg_regs (s : State) (i : RegIdx) (v : Byte) : (s.setReg i v).regs = s.regs.set i.val v := rfl

@[simp] theorem State.setReg_pc (s : State) (i : RegIdx) (v : Byte) : (s.setReg i v).pc = s.pc := rfl

@[simp] theorem State.setReg_fl (s : State) (i : RegIdx) (v : Byte) : (s.setReg i v).fl = s.fl := rfl

@[simp] theorem State.setReg_run (s : State) (i : RegIdx) (v : Byte) : (s.setReg i v).run = s.run := rfl

@[simp] theorem State.setReg_mem (s : State) (i : RegIdx) (v : Byte) : (s.setReg i v).mem = s.mem := rfl

@[simp] theorem State.setReg_out (s : State) (i : RegIdx) (v : Byte) : (s.setReg i v).out = s.out := rfl

@[simp] theorem State.setReg_fr (s : State) (i : RegIdx) (v : Byte) : (s.setReg i v).fr = s.fr := rfl

@[simp] theorem State.setReg_la (s : State) (i : RegIdx) (v : Byte) : (s.setReg i v).la = s.la := rfl

@[simp] theorem State.setReg_ir (s : State) (i : RegIdx) (v : Byte) : (s.setReg i v).ir = s.ir := rfl

@[simp] theorem State.setReg_opA (s : State) (i : RegIdx) (v : Byte) : (s.setReg i v).opA = s.opA := rfl

@[simp] theorem State.setReg_opB (s : State) (i : RegIdx) (v : Byte) : (s.setReg i v).opB = s.opB := rfl

/-! ### `setSp` -/

@[simp] theorem State.setSp_regs (s : State) (v : Byte) : (s.setSp v).regs = s.regs.set 7 v := rfl

@[simp] theorem State.setSp_pc (s : State) (v : Byte) : (s.setSp v).pc = s.pc := rfl

@[simp] theorem State.setSp_fl (s : State) (v : Byte) : (s.setSp v).fl = s.fl := rfl

@[simp] theorem State.setSp_run (s : State) (v : Byte) : (s.setSp v).run = s.run := rfl

@[simp] theorem State.setSp_mem (s : State) (v : Byte) : (s.setSp v).mem = s.mem := rfl

@[simp] theorem State.setSp_out (s : State) (v : Byte) : (s.setSp v).out = s.out := rfl

@[simp] theorem State.setSp_fr (s : State) (v : Byte) : (s.setSp v).fr = s.fr := rfl

@[simp] theorem State.setSp_la (s : State) (v : Byte) : (s.setSp v).la = s.la := rfl

@[simp] theorem State.setSp_ir (s : State) (v : Byte) : (s.setSp v).ir = s.ir := rfl

@[simp] theorem State.setSp_opA (s : State) (v : Byte) : (s.setSp v).opA = s.opA := rfl

@[simp] theorem State.setSp_opB (s : State) (v : Byte) : (s.setSp v).opB = s.opB := rfl

/-! ### `emit` -/

@[simp] theorem State.emit_regs (s : State) (v : Byte) : (s.emit v).regs = s.regs := rfl

@[simp] theorem State.emit_pc (s : State) (v : Byte) : (s.emit v).pc = s.pc := rfl

@[simp] theorem State.emit_fl (s : State) (v : Byte) : (s.emit v).fl = s.fl := rfl

@[simp] theorem State.emit_run (s : State) (v : Byte) : (s.emit v).run = s.run := rfl

@[simp] theorem State.emit_mem (s : State) (v : Byte) : (s.emit v).mem = s.mem := rfl

@[simp] theorem State.emit_out (s : State) (v : Byte) : (s.emit v).out = s.out ++ [v] := rfl

@[simp] theorem State.emit_fr (s : State) (v : Byte) : (s.emit v).fr = s.fr := rfl

@[simp] theorem State.emit_la (s : State) (v : Byte) : (s.emit v).la = s.la := rfl

@[simp] theorem State.emit_ir (s : State) (v : Byte) : (s.emit v).ir = s.ir := rfl

@[simp] theorem State.emit_opA (s : State) (v : Byte) : (s.emit v).opA = s.opA := rfl

@[simp] theorem State.emit_opB (s : State) (v : Byte) : (s.emit v).opB = s.opB := rfl

@[simp] theorem State.emit_reg (s : State) (v : Byte) (k : RegIdx) : (s.emit v).reg k = s.reg k := rfl

/-! ### `jump` -/

@[simp] theorem State.jump_regs (s : State) (v : Byte) : (s.jump v).regs = s.regs := rfl

@[simp] theorem State.jump_pc (s : State) (v : Byte) : (s.jump v).pc = v := rfl

@[simp] theorem State.jump_fl (s : State) (v : Byte) : (s.jump v).fl = s.fl := rfl

@[simp] theorem State.jump_run (s : State) (v : Byte) : (s.jump v).run = s.run := rfl

@[simp] theorem State.jump_mem (s : State) (v : Byte) : (s.jump v).mem = s.mem := rfl

@[simp] theorem State.jump_out (s : State) (v : Byte) : (s.jump v).out = s.out := rfl

@[simp] theorem State.jump_fr (s : State) (v : Byte) : (s.jump v).fr = s.fr := rfl

@[simp] theorem State.jump_la (s : State) (v : Byte) : (s.jump v).la = s.la := rfl

@[simp] theorem State.jump_ir (s : State) (v : Byte) : (s.jump v).ir = s.ir := rfl

@[simp] theorem State.jump_opA (s : State) (v : Byte) : (s.jump v).opA = s.opA := rfl

@[simp] theorem State.jump_opB (s : State) (v : Byte) : (s.jump v).opB = s.opB := rfl

@[simp] theorem State.jump_reg (s : State) (v : Byte) (k : RegIdx) : (s.jump v).reg k = s.reg k := rfl

/-! ### `fetch` -/

@[simp] theorem State.fetch_regs (s : State) : (s.fetch).regs = s.regs := rfl

@[simp] theorem State.fetch_pc (s : State) : (s.fetch).pc = s.pc := rfl

@[simp] theorem State.fetch_fl (s : State) : (s.fetch).fl = s.fl := rfl

@[simp] theorem State.fetch_run (s : State) : (s.fetch).run = s.run := rfl

@[simp] theorem State.fetch_mem (s : State) : (s.fetch).mem = s.mem := rfl

@[simp] theorem State.fetch_out (s : State) : (s.fetch).out = s.out := rfl

@[simp] theorem State.fetch_fr (s : State) : (s.fetch).fr = s.fr := rfl

@[simp] theorem State.fetch_la (s : State) : (s.fetch).la = s.la := rfl

@[simp] theorem State.fetch_ir (s : State) : (s.fetch).ir = s.mem.read s.pc := rfl

@[simp] theorem State.fetch_opA (s : State) : (s.fetch).opA = s.mem.read (s.pc + 1) := rfl

@[simp] theorem State.fetch_opB (s : State) : (s.fetch).opB = s.mem.read (s.pc + 2) := rfl

@[simp] theorem State.fetch_reg (s : State) (k : RegIdx) : (s.fetch).reg k = s.reg k := rfl

/-! ### `raise` -/

@[simp] theorem State.raise_regs (s : State) (c v : Byte) : (s.raise c v).regs = s.regs := rfl

@[simp] theorem State.raise_pc (s : State) (c v : Byte) : (s.raise c v).pc = s.pc := rfl

@[simp] theorem State.raise_fl (s : State) (c v : Byte) : (s.raise c v).fl = s.fl := rfl

@[simp] theorem State.raise_run (s : State) (c v : Byte) : (s.raise c v).run = .faulted := rfl

@[simp] theorem State.raise_mem (s : State) (c v : Byte) : (s.raise c v).mem = s.mem := rfl

@[simp] theorem State.raise_out (s : State) (c v : Byte) : (s.raise c v).out = s.out := rfl

@[simp] theorem State.raise_fr (s : State) (c v : Byte) : (s.raise c v).fr = some { cause := c, pc := s.pc, ir := s.ir, info := v } := rfl

@[simp] theorem State.raise_la (s : State) (c v : Byte) : (s.raise c v).la = s.la := rfl

@[simp] theorem State.raise_ir (s : State) (c v : Byte) : (s.raise c v).ir = s.ir := rfl

@[simp] theorem State.raise_opA (s : State) (c v : Byte) : (s.raise c v).opA = s.opA := rfl

@[simp] theorem State.raise_opB (s : State) (c v : Byte) : (s.raise c v).opB = s.opB := rfl

@[simp] theorem State.raise_reg (s : State) (c v : Byte) (k : RegIdx) : (s.raise c v).reg k = s.reg k := rfl

/-! ### `raiseIllegal` -/

@[simp] theorem State.raiseIllegal_regs (s : State) : (s.raiseIllegal).regs = s.regs := rfl

@[simp] theorem State.raiseIllegal_pc (s : State) : (s.raiseIllegal).pc = s.pc := rfl

@[simp] theorem State.raiseIllegal_fl (s : State) : (s.raiseIllegal).fl = s.fl := rfl

@[simp] theorem State.raiseIllegal_run (s : State) : (s.raiseIllegal).run = .faulted := rfl

@[simp] theorem State.raiseIllegal_mem (s : State) : (s.raiseIllegal).mem = s.mem := rfl

@[simp] theorem State.raiseIllegal_out (s : State) : (s.raiseIllegal).out = s.out := rfl

@[simp] theorem State.raiseIllegal_fr (s : State) : (s.raiseIllegal).fr = some { cause := 0x01, pc := s.pc, ir := s.ir, info := 0 } := rfl

@[simp] theorem State.raiseIllegal_la (s : State) : (s.raiseIllegal).la = s.la := rfl

@[simp] theorem State.raiseIllegal_ir (s : State) : (s.raiseIllegal).ir = s.ir := rfl

@[simp] theorem State.raiseIllegal_opA (s : State) : (s.raiseIllegal).opA = s.opA := rfl

@[simp] theorem State.raiseIllegal_opB (s : State) : (s.raiseIllegal).opB = s.opB := rfl

@[simp] theorem State.raiseIllegal_reg (s : State) (k : RegIdx) : (s.raiseIllegal).reg k = s.reg k := rfl

/-! ### `raiseBadRegister` -/

@[simp] theorem State.raiseBadRegister_regs (s : State) (v : Byte) : (s.raiseBadRegister v).regs = s.regs := rfl

@[simp] theorem State.raiseBadRegister_pc (s : State) (v : Byte) : (s.raiseBadRegister v).pc = s.pc := rfl

@[simp] theorem State.raiseBadRegister_fl (s : State) (v : Byte) : (s.raiseBadRegister v).fl = s.fl := rfl

@[simp] theorem State.raiseBadRegister_run (s : State) (v : Byte) : (s.raiseBadRegister v).run = .faulted := rfl

@[simp] theorem State.raiseBadRegister_mem (s : State) (v : Byte) : (s.raiseBadRegister v).mem = s.mem := rfl

@[simp] theorem State.raiseBadRegister_out (s : State) (v : Byte) : (s.raiseBadRegister v).out = s.out := rfl

@[simp] theorem State.raiseBadRegister_fr (s : State) (v : Byte) : (s.raiseBadRegister v).fr = some { cause := 0x02, pc := s.pc, ir := s.ir, info := v } := rfl

@[simp] theorem State.raiseBadRegister_la (s : State) (v : Byte) : (s.raiseBadRegister v).la = s.la := rfl

@[simp] theorem State.raiseBadRegister_ir (s : State) (v : Byte) : (s.raiseBadRegister v).ir = s.ir := rfl

@[simp] theorem State.raiseBadRegister_opA (s : State) (v : Byte) : (s.raiseBadRegister v).opA = s.opA := rfl

@[simp] theorem State.raiseBadRegister_opB (s : State) (v : Byte) : (s.raiseBadRegister v).opB = s.opB := rfl

@[simp] theorem State.raiseBadRegister_reg (s : State) (v : Byte) (k : RegIdx) : (s.raiseBadRegister v).reg k = s.reg k := rfl

/-! ### `push` -/

@[simp] theorem State.push_regs (s : State) (v : Byte) : (s.push v).regs = s.regs.set 7 (s.sp - 1) := rfl

@[simp] theorem State.push_pc (s : State) (v : Byte) : (s.push v).pc = s.pc := rfl

@[simp] theorem State.push_fl (s : State) (v : Byte) : (s.push v).fl = s.fl := rfl

@[simp] theorem State.push_run (s : State) (v : Byte) : (s.push v).run = s.run := rfl

@[simp] theorem State.push_mem (s : State) (v : Byte) : (s.push v).mem = s.mem.write (s.sp - 1) v := rfl

@[simp] theorem State.push_out (s : State) (v : Byte) : (s.push v).out = s.out := rfl

@[simp] theorem State.push_fr (s : State) (v : Byte) : (s.push v).fr = s.fr := rfl

@[simp] theorem State.push_la (s : State) (v : Byte) : (s.push v).la = s.la := rfl

@[simp] theorem State.push_ir (s : State) (v : Byte) : (s.push v).ir = s.ir := rfl

@[simp] theorem State.push_opA (s : State) (v : Byte) : (s.push v).opA = s.opA := rfl

@[simp] theorem State.push_opB (s : State) (v : Byte) : (s.push v).opB = s.opB := rfl

/-! ### `loadByte` -/

@[simp] theorem State.loadByte_regs (s : State) (v : Byte) : (s.loadByte v).regs = s.regs := rfl

@[simp] theorem State.loadByte_pc (s : State) (v : Byte) : (s.loadByte v).pc = s.pc := rfl

@[simp] theorem State.loadByte_fl (s : State) (v : Byte) : (s.loadByte v).fl = s.fl := rfl

@[simp] theorem State.loadByte_run (s : State) (v : Byte) : (s.loadByte v).run = s.run := rfl

@[simp] theorem State.loadByte_mem (s : State) (v : Byte) : (s.loadByte v).mem = s.mem.write s.la v := rfl

@[simp] theorem State.loadByte_out (s : State) (v : Byte) : (s.loadByte v).out = s.out := rfl

@[simp] theorem State.loadByte_fr (s : State) (v : Byte) : (s.loadByte v).fr = s.fr := rfl

@[simp] theorem State.loadByte_la (s : State) (v : Byte) : (s.loadByte v).la = s.la + 1 := rfl

@[simp] theorem State.loadByte_ir (s : State) (v : Byte) : (s.loadByte v).ir = s.ir := rfl

@[simp] theorem State.loadByte_opA (s : State) (v : Byte) : (s.loadByte v).opA = s.opA := rfl

@[simp] theorem State.loadByte_opB (s : State) (v : Byte) : (s.loadByte v).opB = s.opB := rfl

@[simp] theorem State.loadByte_reg (s : State) (v : Byte) (k : RegIdx) : (s.loadByte v).reg k = s.reg k := rfl

/-! ### `finish` -/

@[simp] theorem State.finish_regs (s : State) (m : Mnemonic) : (s.finish m).regs = s.regs := by cases m <;> rfl

@[simp] theorem State.finish_fl (s : State) (m : Mnemonic) : (s.finish m).fl = s.fl := by cases m <;> rfl

@[simp] theorem State.finish_run (s : State) (m : Mnemonic) : (s.finish m).run = s.run := by cases m <;> rfl

@[simp] theorem State.finish_mem (s : State) (m : Mnemonic) : (s.finish m).mem = s.mem := by cases m <;> rfl

@[simp] theorem State.finish_out (s : State) (m : Mnemonic) : (s.finish m).out = s.out := by cases m <;> rfl

@[simp] theorem State.finish_fr (s : State) (m : Mnemonic) : (s.finish m).fr = s.fr := by cases m <;> rfl

@[simp] theorem State.finish_la (s : State) (m : Mnemonic) : (s.finish m).la = s.la := by cases m <;> rfl

@[simp] theorem State.finish_ir (s : State) (m : Mnemonic) : (s.finish m).ir = s.ir := by cases m <;> rfl

@[simp] theorem State.finish_opA (s : State) (m : Mnemonic) : (s.finish m).opA = s.opA := by cases m <;> rfl

@[simp] theorem State.finish_opB (s : State) (m : Mnemonic) : (s.finish m).opB = s.opB := by cases m <;> rfl

@[simp] theorem State.finish_reg (s : State) (m : Mnemonic) (k : RegIdx) : (s.finish m).reg k = s.reg k := by cases m <;> rfl

/-! ### `alu` -/

@[simp] theorem State.alu_pc (s : State) (sel : AluSel) (i j : RegIdx) : (s.alu sel i j).pc = s.pc := by unfold State.alu; split <;> rfl

@[simp] theorem State.alu_fl (s : State) (sel : AluSel) (i j : RegIdx) : (s.alu sel i j).fl = s.fl := by unfold State.alu; split <;> rfl

@[simp] theorem State.alu_run (s : State) (sel : AluSel) (i j : RegIdx) : (s.alu sel i j).run = s.run := by unfold State.alu; split <;> rfl

@[simp] theorem State.alu_mem (s : State) (sel : AluSel) (i j : RegIdx) : (s.alu sel i j).mem = s.mem := by unfold State.alu; split <;> rfl

@[simp] theorem State.alu_out (s : State) (sel : AluSel) (i j : RegIdx) : (s.alu sel i j).out = s.out := by unfold State.alu; split <;> rfl

@[simp] theorem State.alu_fr (s : State) (sel : AluSel) (i j : RegIdx) : (s.alu sel i j).fr = s.fr := by unfold State.alu; split <;> rfl

@[simp] theorem State.alu_la (s : State) (sel : AluSel) (i j : RegIdx) : (s.alu sel i j).la = s.la := by unfold State.alu; split <;> rfl

@[simp] theorem State.alu_ir (s : State) (sel : AluSel) (i j : RegIdx) : (s.alu sel i j).ir = s.ir := by unfold State.alu; split <;> rfl

@[simp] theorem State.alu_opA (s : State) (sel : AluSel) (i j : RegIdx) : (s.alu sel i j).opA = s.opA := by unfold State.alu; split <;> rfl

@[simp] theorem State.alu_opB (s : State) (sel : AluSel) (i j : RegIdx) : (s.alu sel i j).opB = s.opB := by unfold State.alu; split <;> rfl

/-! ### Registers read after a write -/

@[simp] theorem State.setReg_reg (s : State) (i : RegIdx) (v : Byte) (k : RegIdx) :
    (s.setReg i v).reg k = if k = i then v else s.reg k := by
  simp only [State.reg, State.setReg, Vector.getElem_set, Fin.ext_iff, eq_comm]

@[simp] theorem State.setSp_reg (s : State) (v : Byte) (k : RegIdx) :
    (s.setSp v).reg k = if k = 7 then v else s.reg k := State.setReg_reg s 7 v k

@[simp] theorem State.push_reg (s : State) (v : Byte) (k : RegIdx) :
    (s.push v).reg k = if k = 7 then s.reg 7 - 1 else s.reg k := State.setReg_reg s 7 _ k

@[simp] theorem State.pop_fst (s : State) : s.pop.1 = s.mem.read (s.reg 7) := rfl

@[simp] theorem State.pop_snd (s : State) : s.pop.2 = s.setSp (s.reg 7 + 1) := rfl

/-! ### The end of an instruction -/

/-- Where the pc goes at the end of an instruction that does not suppress the advance (R83). -/
theorem State.finish_pc (s : State) (m : Mnemonic) :
    (s.finish m).pc = if (controls m).suppressAdvance then s.pc else s.pc + BitVec.ofNat 8 (controls m).len := by
  cases m <;> rfl

end Sys2Proof.Machine
end

