-- ==== Sys2Proof/Laws/Exec.lean ====
section
/-!
SUPPORT. Everything an instruction can do, said once: the operand check, one equation per instruction and operand
verdict, and the relation `Ran` that lists every outcome of `exec`.
-/

namespace Sys2Proof.Machine

/-! ### The operand check -/

@[simp] theorem regByte_toNat (i : RegIdx) : (regByte i).toNat = i.val := by
  simp only [regByte, BitVec.toNat_ofNat]; omega

@[simp] theorem regIndex_regByte (i : RegIdx) : regIndex (regByte i) = some i := by
  simp [regIndex]

theorem regIndex_bad {v : Byte} (h : 7 < v.toNat) : regIndex v = none := by
  simp only [regIndex, dif_neg (show ¬ v.toNat < 8 by omega)]

/-- An operand byte is the index of a register, or above 7 (R66). -/
theorem operand_cases (v : Byte) : (∃ i, v = regByte i) ∨ 7 < v.toNat := by
  by_cases h : v.toNat < 8
  · refine .inl ⟨⟨v.toNat, h⟩, BitVec.eq_of_toNat_eq ?_⟩
    rw [regByte_toNat]
  · exact .inr (by omega)

theorem regByte_inj {i j : RegIdx} (h : regByte i = regByte j) : i = j := by
  have := congrArg BitVec.toNat h
  simpa [Fin.ext_iff] using this

@[simp] theorem isRegIndex_regByte (i : RegIdx) : isRegIndex (regByte i) = true := by
  have := i.isLt
  simp only [isRegIndex, regByte_toNat, decide_eq_true_eq]; omega

theorem isRegIndex_bad {v : Byte} (h : 7 < v.toNat) : isRegIndex v = false := by
  simp only [isRegIndex, decide_eq_false_iff_not]; omega

@[simp] theorem withReg_regByte (s : State) (i : RegIdx) (go : RegIdx → Outcome) :
    withReg s (regByte i) go = go i := by
  simp only [withReg, regIndex_regByte]

theorem withReg_bad (s : State) {v : Byte} (h : 7 < v.toNat) (go : RegIdx → Outcome) :
    withReg s v go = .next (s.raiseBadRegister v) := by
  simp only [withReg, regIndex_bad h]

/-! ### The ALU -/

theorem State.alu_mul (s : State) (i j : RegIdx) : s.alu .mul i j = s.setReg i (s.reg i * s.reg j) := by
  simp only [State.alu, aluResult, BitVec.ofNat_mul, BitVec.ofNat_toNat, BitVec.setWidth_eq, flagsAfter]; rfl

theorem State.alu_add (s : State) (i j : RegIdx) : s.alu .add i j = s.setReg i (s.reg i + s.reg j) := by
  simp only [State.alu, aluResult, BitVec.ofNat_add, BitVec.ofNat_toNat, BitVec.setWidth_eq, flagsAfter]; rfl

/-! ### One equation per instruction whose operands are register indices -/

theorem exec_hlt (s : State) : exec .hlt s = .next (State.finish { s with run := .halted } .hlt) := rfl

theorem exec_ldi (s : State) (i : RegIdx) (imm : Byte) :
    exec (.ldi (regByte i) imm) s = .next ((s.setReg i imm).finish .ldi) :=
  withReg_regByte s i _

theorem exec_prn (s : State) (i : RegIdx) :
    exec (.prn (regByte i)) s = .next ((s.emit (s.reg i)).finish .prn) :=
  withReg_regByte s i _

theorem exec_mul (s : State) (i j : RegIdx) :
    exec (.mul (regByte i) (regByte j)) s = .next ((s.setReg i (s.reg i * s.reg j)).finish .mul) := by
  simp only [exec, execMul, withReg_regByte, controls, State.alu_mul]

theorem exec_add (s : State) (i j : RegIdx) :
    exec (.add (regByte i) (regByte j)) s = .next ((s.setReg i (s.reg i + s.reg j)).finish .add) := by
  simp only [exec, execAdd, withReg_regByte, controls, State.alu_add]

theorem exec_pop (s : State) (i : RegIdx) :
    exec (.pop (regByte i)) s =
      .next (((s.setSp (s.reg 7 + 1)).setReg i (s.mem.read (s.reg 7))).finish .pop) :=
  withReg_regByte s i _

theorem exec_push (s : State) (i : RegIdx) :
    exec (.push (regByte i)) s = .next ((s.push (s.reg i)).finish .push) :=
  withReg_regByte s i _

theorem exec_call (s : State) (i : RegIdx) :
    exec (.call (regByte i)) s =
      .next (((s.push (s.pc + 2)).jump ((s.push (s.pc + 2)).reg i)).finish .call) :=
  withReg_regByte s i _

theorem exec_ret (s : State) :
    exec .ret s = .next (((s.setSp (s.reg 7 + 1)).jump (s.mem.read (s.reg 7))).finish .ret) := rfl

/-! ### The two faults -/

theorem exec_illegal {i : Instr} (h : i.isCore = false) (s : State) : exec i s = .next s.raiseIllegal := by
  cases i <;> first | rfl | cases h

theorem exec_badRegister {i : Instr} {v : Byte} (h : i.regOperands.find? (fun v => !isRegIndex v) = some v)
    (s : State) : exec i s = .next (s.raiseBadRegister v) := by
  have one : ∀ {a : Byte}, [a].find? (fun v => !isRegIndex v) = some v → v = a ∧ 7 < a.toNat := by
    intro a h
    rcases operand_cases a with ⟨j, rfl⟩ | ha
    · simp at h
    · simp [isRegIndex_bad ha] at h; exact ⟨h.symm, ha⟩
  have two : ∀ {a b : Byte} {go : RegIdx → RegIdx → Outcome},
      [a, b].find? (fun v => !isRegIndex v) = some v →
      (withReg s a fun x => withReg s b fun y => go x y) = .next (s.raiseBadRegister v) := by
    intro a b go h
    rcases operand_cases a with ⟨j, rfl⟩ | ha
    · obtain ⟨rfl, hb⟩ := one (a := b) (by simpa using h)
      rw [withReg_regByte, withReg_bad s hb]
    · have : v = a := by simpa [isRegIndex_bad ha, eq_comm] using h
      rw [withReg_bad s ha, this]
  cases i with
  | ldi a imm => obtain ⟨rfl, ha⟩ := one h; exact withReg_bad s ha _
  | prn a => obtain ⟨rfl, ha⟩ := one h; exact withReg_bad s ha _
  | pop a => obtain ⟨rfl, ha⟩ := one h; exact withReg_bad s ha _
  | push a => obtain ⟨rfl, ha⟩ := one h; exact withReg_bad s ha _
  | call a => obtain ⟨rfl, ha⟩ := one h; exact withReg_bad s ha _
  | mul a b => exact two h
  | add a b => exact two h
  | _ => simp [Instr.regOperands] at h

/-! ### Every outcome of `exec` -/

/-- What the instruction `i` makes of the state `s`. -/
inductive Ran : Instr → State → State → Prop
  | hlt (s : State) : Ran .hlt s (State.finish { s with run := .halted } .hlt)
  | ldi (s : State) (i : RegIdx) (imm : Byte) : Ran (.ldi (regByte i) imm) s ((s.setReg i imm).finish .ldi)
  | prn (s : State) (i : RegIdx) : Ran (.prn (regByte i)) s ((s.emit (s.reg i)).finish .prn)
  | mul (s : State) (i j : RegIdx) :
      Ran (.mul (regByte i) (regByte j)) s ((s.setReg i (s.reg i * s.reg j)).finish .mul)
  | add (s : State) (i j : RegIdx) :
      Ran (.add (regByte i) (regByte j)) s ((s.setReg i (s.reg i + s.reg j)).finish .add)
  | pop (s : State) (i : RegIdx) :
      Ran (.pop (regByte i)) s (((s.setSp (s.reg 7 + 1)).setReg i (s.mem.read (s.reg 7))).finish .pop)
  | push (s : State) (i : RegIdx) : Ran (.push (regByte i)) s ((s.push (s.reg i)).finish .push)
  | call (s : State) (i : RegIdx) :
      Ran (.call (regByte i)) s (((s.push (s.pc + 2)).jump ((s.push (s.pc + 2)).reg i)).finish .call)
  | ret (s : State) : Ran .ret s (((s.setSp (s.reg 7 + 1)).jump (s.mem.read (s.reg 7))).finish .ret)
  | illegal (i : Instr) (s : State) (h : i.isCore = false) : Ran i s s.raiseIllegal
  | badRegister (i : Instr) (s : State) (v : Byte)
      (h : i.regOperands.find? (fun v => !isRegIndex v) = some v) : Ran i s (s.raiseBadRegister v)

/-- Every instruction answers a next state, and it is one that `Ran` lists. -/
theorem exec_ran (i : Instr) (s : State) : ∃ t, exec i s = .next t ∧ Ran i s t := by
  cases hf : i.regOperands.find? (fun v => !isRegIndex v) with
  | some v => exact ⟨_, exec_badRegister hf s, .badRegister i s v hf⟩
  | none =>
    cases hc : i.isCore with
    | false => exact ⟨_, exec_illegal hc s, .illegal i s hc⟩
    | true =>
      have good : ∀ v ∈ i.regOperands, ∃ j, v = regByte j := by
        intro v hv
        rcases operand_cases v with h | h
        · exact h
        · have := List.find?_eq_none.1 hf v hv
          simp [isRegIndex_bad h] at this
      cases i with
      | hlt => exact ⟨_, exec_hlt s, .hlt s⟩
      | ret => exact ⟨_, exec_ret s, .ret s⟩
      | ldi a imm =>
        obtain ⟨x, rfl⟩ := good a (by simp [Instr.regOperands])
        exact ⟨_, exec_ldi s x imm, .ldi s x imm⟩
      | prn a =>
        obtain ⟨x, rfl⟩ := good a (by simp [Instr.regOperands])
        exact ⟨_, exec_prn s x, .prn s x⟩
      | pop a =>
        obtain ⟨x, rfl⟩ := good a (by simp [Instr.regOperands])
        exact ⟨_, exec_pop s x, .pop s x⟩
      | push a =>
        obtain ⟨x, rfl⟩ := good a (by simp [Instr.regOperands])
        exact ⟨_, exec_push s x, .push s x⟩
      | call a =>
        obtain ⟨x, rfl⟩ := good a (by simp [Instr.regOperands])
        exact ⟨_, exec_call s x, .call s x⟩
      | mul a b =>
        obtain ⟨x, rfl⟩ := good a (by simp [Instr.regOperands])
        obtain ⟨y, rfl⟩ := good b (by simp [Instr.regOperands])
        exact ⟨_, exec_mul s x y, .mul s x y⟩
      | add a b =>
        obtain ⟨x, rfl⟩ := good a (by simp [Instr.regOperands])
        obtain ⟨y, rfl⟩ := good b (by simp [Instr.regOperands])
        exact ⟨_, exec_add s x y, .add s x y⟩
      | _ => cases hc

/-- If `exec` answers a next state, `Ran` lists it. -/
theorem ran_of_exec {i : Instr} {s t : State} (h : exec i s = .next t) : Ran i s t := by
  obtain ⟨u, hu, hr⟩ := exec_ran i s
  rw [hu] at h
  cases h
  exact hr

/-- Every state that `Ran` lists is the one `exec` answers. -/
theorem exec_of_ran {i : Instr} {s t : State} (h : Ran i s t) : exec i s = .next t := by
  cases h with
  | hlt => exact exec_hlt s
  | ldi => exact exec_ldi s _ _
  | prn => exact exec_prn s _
  | mul => exact exec_mul s _ _
  | add => exact exec_add s _ _
  | pop => exact exec_pop s _
  | push => exact exec_push s _
  | call => exact exec_call s _
  | ret => exact exec_ret s
  | illegal _ _ h => exact exec_illegal h s
  | badRegister _ _ _ h => exact exec_badRegister h s

end Sys2Proof.Machine
end

