-- ==== Sys2Proof/Laws/PerInstr.lean ====
section
/-!
SUPPORT. The facts made per instruction: what the encoder writes for each constructor.
-/

namespace Sys2Proof.Laws.EncodingLength

/-- The encoding of an instruction is its opcode byte and its operand bytes, `size` bytes in all and at most three
(R10, R63); for the nine, under a legal table, the top two bits of the opcode byte count the operand bytes (R62, R70). -/
def Statement (i : Instr) : Prop :=
  ∀ opc : Opc, opcLegal opc = true →
    encode opc i = opcodeByte opc i :: i.operands ∧ (encode opc i).length = i.size ∧ i.size ≤ Config.maxLen ∧
    (i.isCore = true → operandCount (opcodeByte opc i) = i.operands.length)

theorem hlt : Statement (.hlt) := fun opc h => ⟨rfl, rfl, Nat.le_of_ble_eq_true rfl, fun _ => ((opcLegal_iff opc).1 h).1 .hlt⟩

theorem ldi (a imm : Byte) : Statement (.ldi a imm) := fun opc h => ⟨rfl, rfl, Nat.le_of_ble_eq_true rfl, fun _ => ((opcLegal_iff opc).1 h).1 .ldi⟩

theorem prn (a : Byte) : Statement (.prn a) := fun opc h => ⟨rfl, rfl, Nat.le_of_ble_eq_true rfl, fun _ => ((opcLegal_iff opc).1 h).1 .prn⟩

theorem mul (a b : Byte) : Statement (.mul a b) := fun opc h => ⟨rfl, rfl, Nat.le_of_ble_eq_true rfl, fun _ => ((opcLegal_iff opc).1 h).1 .mul⟩

theorem add (a b : Byte) : Statement (.add a b) := fun opc h => ⟨rfl, rfl, Nat.le_of_ble_eq_true rfl, fun _ => ((opcLegal_iff opc).1 h).1 .add⟩

theorem pop (a : Byte) : Statement (.pop a) := fun opc h => ⟨rfl, rfl, Nat.le_of_ble_eq_true rfl, fun _ => ((opcLegal_iff opc).1 h).1 .pop⟩

theorem push (a : Byte) : Statement (.push a) := fun opc h => ⟨rfl, rfl, Nat.le_of_ble_eq_true rfl, fun _ => ((opcLegal_iff opc).1 h).1 .push⟩

theorem call (a : Byte) : Statement (.call a) := fun opc h => ⟨rfl, rfl, Nat.le_of_ble_eq_true rfl, fun _ => ((opcLegal_iff opc).1 h).1 .call⟩

theorem ret : Statement (.ret) := fun opc h => ⟨rfl, rfl, Nat.le_of_ble_eq_true rfl, fun _ => ((opcLegal_iff opc).1 h).1 .ret⟩

theorem cmpReserved : Statement (.cmpReserved) := fun _ _ => ⟨rfl, rfl, Nat.le_of_ble_eq_true rfl, fun h => nomatch h⟩

theorem jmpReserved : Statement (.jmpReserved) := fun _ _ => ⟨rfl, rfl, Nat.le_of_ble_eq_true rfl, fun h => nomatch h⟩

theorem jeqReserved : Statement (.jeqReserved) := fun _ _ => ⟨rfl, rfl, Nat.le_of_ble_eq_true rfl, fun h => nomatch h⟩

theorem jneReserved : Statement (.jneReserved) := fun _ _ => ⟨rfl, rfl, Nat.le_of_ble_eq_true rfl, fun h => nomatch h⟩

theorem andReserved : Statement (.andReserved) := fun _ _ => ⟨rfl, rfl, Nat.le_of_ble_eq_true rfl, fun h => nomatch h⟩

theorem orReserved : Statement (.orReserved) := fun _ _ => ⟨rfl, rfl, Nat.le_of_ble_eq_true rfl, fun h => nomatch h⟩

theorem xorReserved : Statement (.xorReserved) := fun _ _ => ⟨rfl, rfl, Nat.le_of_ble_eq_true rfl, fun h => nomatch h⟩

theorem notReserved : Statement (.notReserved) := fun _ _ => ⟨rfl, rfl, Nat.le_of_ble_eq_true rfl, fun h => nomatch h⟩

theorem shlReserved : Statement (.shlReserved) := fun _ _ => ⟨rfl, rfl, Nat.le_of_ble_eq_true rfl, fun h => nomatch h⟩

theorem shrReserved : Statement (.shrReserved) := fun _ _ => ⟨rfl, rfl, Nat.le_of_ble_eq_true rfl, fun h => nomatch h⟩

theorem modReserved : Statement (.modReserved) := fun _ _ => ⟨rfl, rfl, Nat.le_of_ble_eq_true rfl, fun h => nomatch h⟩

theorem anyOther (ir : Byte) : Statement (.anyOther ir) := fun _ _ => ⟨rfl, rfl, Nat.le_of_ble_eq_true rfl, fun h => nomatch h⟩

end Sys2Proof.Laws.EncodingLength
end

