-- ==== Sys2Proof/Laws/Step.lean ====
section
/-!
SUPPORT. Everything a step and a host action can do, said once.
-/

namespace Sys2Proof.Machine

/-- The instruction in the latches after the fetch is the next instruction. -/
theorem nextInstr_eq (opc : Opc) (s : State) :
    decode opc s.fetch.ir s.fetch.opA s.fetch.opB = s.nextInstr opc := rfl

/-- A running CORE's step is its next instruction, run on the fetched state. -/
theorem stepWith_running {opc : Opc} (h : opcLegal opc = true) {s : State} (hr : s.run = .running) :
    stepWith opc s = exec (s.nextInstr opc) s.fetch := by
  simp only [stepWith, h, if_true, hr, nextInstr_eq]

/-- A stopped CORE's step changes nothing (R77). -/
theorem stepWith_stopped {opc : Opc} (h : opcLegal opc = true) {s : State} (hr : s.run ≠ .running) :
    stepWith opc s = .next s := by
  cases hs : s.run <;> simp_all [stepWith, stoppedStep]

theorem stepWith_illegalOpc {opc : Opc} (h : opcLegal opc = false) (s : State) :
    stepWith opc s = .refused .illegalOpc := by
  simp [stepWith, h]

/-- A running CORE always has a next state, and it is one that `Ran` lists. -/
theorem stepWith_ran {opc : Opc} (h : opcLegal opc = true) {s : State} (hr : s.run = .running) :
    ∃ t, stepWith opc s = .next t ∧ Ran (s.nextInstr opc) s.fetch t := by
  rw [stepWith_running h hr]
  exact exec_ran _ _

/-- If a step answers a next state, the table is legal, and either the CORE was stopped and nothing changed or it was
running and `Ran` lists the state. -/
theorem stepWith_next {opc : Opc} {s t : State} (h : stepWith opc s = .next t) :
    opcLegal opc = true ∧
      ((s.run ≠ .running ∧ t = s) ∨ (s.run = .running ∧ Ran (s.nextInstr opc) s.fetch t)) := by
  cases hl : opcLegal opc with
  | false => rw [stepWith_illegalOpc hl] at h; cases h
  | true =>
    refine ⟨rfl, ?_⟩
    by_cases hr : s.run = .running
    · rw [stepWith_running hl hr] at h
      exact .inr ⟨hr, ran_of_exec h⟩
    · rw [stepWith_stopped hl hr] at h
      cases h
      exact .inl ⟨hr, rfl⟩

/-- If a sequence answers a next state, so does its first part. -/
theorem andThen_next {o : Outcome} {f : State → Outcome} {t : State} (h : andThen o f = .next t) :
    ∃ s, o = .next s ∧ f s = .next t := by
  cases o with
  | next s => exact ⟨s, rfl, h⟩
  | fault r => cases h
  | refused r => cases h

@[simp] theorem andThen_of_next (s : State) (f : State → Outcome) : andThen (.next s) f = f s := rfl

/-- If a host action answers a next state, it is one of these three (R30). -/
theorem hostAct_next {a : HostAction} {s t : State} (h : hostAct a s = .next t) :
    (a = .reset ∧ t = State.reset) ∨
    (∃ v, a = .load v ∧ s.run = .inReset ∧ t = s.loadByte v) ∨
    (a = .release ∧ s.run = .inReset ∧ t = { s with run := .running }) := by
  cases a with
  | reset => cases h; exact .inl ⟨rfl, rfl⟩
  | load v =>
    simp only [hostAct, hostLoad] at h
    split at h
    · next hr => cases h; exact .inr (.inl ⟨v, rfl, hr, rfl⟩)
    · cases h
  | release =>
    simp only [hostAct, hostRelease] at h
    split at h
    · next hr => cases h; exact .inr (.inr ⟨rfl, hr, rfl⟩)
    · cases h

theorem hostLoad_inReset {s : State} (h : s.run = .inReset) (v : Byte) : hostLoad v s = .next (s.loadByte v) := by
  simp only [hostLoad, h, if_true]

/-! ### The fault that is about to be raised -/

/-- The pending fault depends on the memory and the pc alone. -/
theorem pendingFault_congr {opc : Opc} {s t : State} (hm : t.mem = s.mem) (hp : t.pc = s.pc) :
    t.pendingFault opc = s.pendingFault opc := by
  unfold State.pendingFault State.nextInstr
  rw [hm, hp]

theorem pendingFault_illegal {opc : Opc} {s : State} (h : (s.nextInstr opc).isCore = false) :
    s.pendingFault opc =
      some { cause := causeIllegalInstruction, pc := s.pc, ir := s.mem.read s.pc, info := 0 } := by
  simp [State.pendingFault, h]

theorem isCore_of_regOperands {i : Instr} {v : Byte} (h : i.regOperands.find? (fun v => !isRegIndex v) = some v) :
    i.isCore = true := by
  cases i <;> first | rfl | (simp [Instr.regOperands] at h)

theorem pendingFault_badRegister {opc : Opc} {s : State} {v : Byte}
    (h : (s.nextInstr opc).regOperands.find? (fun v => !isRegIndex v) = some v) :
    s.pendingFault opc =
      some { cause := causeBadRegister, pc := s.pc, ir := s.mem.read s.pc, info := v } := by
  simp [State.pendingFault, isCore_of_regOperands h, h]

/-- A step of a running CORE, by its pending fault: with one, fault entry on the fetched state and nothing else;
without one, the instruction's own effect, which enters no fault (R108, R109). -/
theorem stepWith_pendingFault {opc : Opc} (h : opcLegal opc = true) {s : State} (hr : s.run = .running) :
    (∃ r, s.pendingFault opc = some r ∧
      stepWith opc s = .next { s.fetch with run := .faulted, fr := some r }) ∨
    (s.pendingFault opc = none ∧
      ∃ t, stepWith opc s = .next t ∧ Ran (s.nextInstr opc) s.fetch t ∧ t.run ≠ .faulted ∧ t.fr = s.fr) := by
  obtain ⟨t, ht, hran⟩ := stepWith_ran h hr
  cases hp : s.pendingFault opc with
  | some r =>
    refine .inl ⟨r, rfl, ?_⟩
    rw [ht]
    have : exec (s.nextInstr opc) s.fetch = .next t := exec_of_ran hran
    by_cases hc : (s.nextInstr opc).isCore = true
    · cases hf : (s.nextInstr opc).regOperands.find? (fun v => !isRegIndex v) with
      | none => simp [State.pendingFault, hc, hf] at hp
      | some v =>
        rw [pendingFault_badRegister hf] at hp
        rw [exec_badRegister hf] at this
        cases hp; cases this; rfl
    · have hc' : (s.nextInstr opc).isCore = false := by simpa using hc
      rw [pendingFault_illegal hc'] at hp
      rw [exec_illegal hc'] at this
      cases hp; cases this; rfl
  | none =>
    refine .inr ⟨rfl, t, ht, hran, ?_⟩
    have hcore : (s.nextInstr opc).isCore = true := by
      cases hc : (s.nextInstr opc).isCore with
      | true => rfl
      | false => rw [pendingFault_illegal hc] at hp; cases hp
    generalize hi : s.nextInstr opc = i at hran hcore
    cases hran with
    | illegal _ _ hc => rw [hc] at hcore; cases hcore
    | badRegister _ _ v hv =>
      subst hi
      rw [pendingFault_badRegister hv] at hp; cases hp
    | _ => simp [hr]

end Sys2Proof.Machine
end

