-- ==== Sys2Proof/Tests/Slice0.lean ====
section
/-!
SUPPORT. The model's own tests. Expected results are the spec's test vectors (95_test_vectors.md, named at each test)
or worked from the rules by hand. The last part shows, for every obligation with hypotheses, a state and operands that
meet them.
-/

namespace Sys2Proof.Tests

open Sys2Proof.Machine

/-- What a test looks at of the state an outcome answers. -/
def after {α : Type} (o : Outcome) (look : State → α) : Option α :=
  match o with
  | .next s => some (look s)
  | .fault _ => none
  | .refused _ => none

/-- The launch state (R123) with bytes placed from address `a`, and `pc` there. -/
def at' (a : Byte) (bytes : List Byte) : State :=
  { State.reset with mem := storeBytes [] a bytes, pc := a, run := .running }

/-- The launch state with bytes placed from address 0. -/
def launch (bytes : List Byte) : State := at' 0 bytes

/-! ### Well-formedness: an ill-formed term for each check -/

theorem test_wf_ldi_register_8 : (Instr.ldi 8 1).wellFormed defaultOpc = false := by decide
theorem test_wf_prn_register_8 : (Instr.prn 8).wellFormed defaultOpc = false := by decide
theorem test_wf_mul_first_register : (Instr.mul 8 0).wellFormed defaultOpc = false := by decide
theorem test_wf_mul_second_register : (Instr.mul 0 8).wellFormed defaultOpc = false := by decide
theorem test_wf_add_first_register : (Instr.add 255 0).wellFormed defaultOpc = false := by decide
theorem test_wf_add_second_register : (Instr.add 7 8).wellFormed defaultOpc = false := by decide
theorem test_wf_pop_register_9 : (Instr.pop 9).wellFormed defaultOpc = false := by decide
theorem test_wf_push_register_128 : (Instr.push 128).wellFormed defaultOpc = false := by decide
theorem test_wf_call_register_10 : (Instr.call 10).wellFormed defaultOpc = false := by decide
theorem test_wf_other_is_an_opcode : (Instr.anyOther 0x01).wellFormed defaultOpc = false := by decide
theorem test_wf_other_is_reserved : (Instr.anyOther 0x54).wellFormed defaultOpc = false := by decide
theorem test_wf_good_terms :
    (Instr.ldi 7 255).wellFormed defaultOpc = true ∧ (Instr.add 0 7).wellFormed defaultOpc = true ∧
    (Instr.anyOther 0xC0).wellFormed defaultOpc = true := by decide

/-! ### Decoding: a word of every constructor, its first byte in the low bits (R63, R69, R71) -/

theorem test_decode_hlt : decodeTableWord 8 0b00000001 = some .hlt := by decide
theorem test_decode_ldi : decodeTableWord 24 0b11001000_00000011_10000010 = some (.ldi 3 200) := by decide
theorem test_decode_prn : decodeTableWord 16 0b00000101_01000111 = some (.prn 5) := by decide
theorem test_decode_mul : decodeTableWord 24 0b00000110_00000001_10100010 = some (.mul 1 6) := by decide
theorem test_decode_add : decodeTableWord 24 0b00000001_00000110_10100000 = some (.add 6 1) := by decide
theorem test_decode_pop : decodeTableWord 16 0b00000010_01000110 = some (.pop 2) := by decide
theorem test_decode_push : decodeTableWord 16 0b00000100_01000101 = some (.push 4) := by decide
theorem test_decode_call : decodeTableWord 16 0b00000111_01010000 = some (.call 7) := by decide
theorem test_decode_ret : decodeTableWord 8 0b00010001 = some .ret := by decide
theorem test_decode_cmp : decodeTableWord 8 0b10100111 = some .cmpReserved := by decide
theorem test_decode_jmp : decodeTableWord 8 0b01010100 = some .jmpReserved := by decide
theorem test_decode_jeq : decodeTableWord 8 0b01010101 = some .jeqReserved := by decide
theorem test_decode_jne : decodeTableWord 8 0b01010110 = some .jneReserved := by decide
theorem test_decode_and : decodeTableWord 8 0b10101000 = some .andReserved := by decide
theorem test_decode_or : decodeTableWord 8 0b10101010 = some .orReserved := by decide
theorem test_decode_xor : decodeTableWord 8 0b10101011 = some .xorReserved := by decide
theorem test_decode_not : decodeTableWord 8 0b01101001 = some .notReserved := by decide
theorem test_decode_shl : decodeTableWord 8 0b10101100 = some .shlReserved := by decide
theorem test_decode_shr : decodeTableWord 8 0b10101101 = some .shrReserved := by decide
theorem test_decode_mod : decodeTableWord 8 0b10100100 = some .modReserved := by decide
theorem test_decode_other_zero : decodeTableWord 8 0b00000000 = some (.anyOther 0x00) := by decide
theorem test_decode_other_top_bits : decodeTableWord 8 0b11000000 = some (.anyOther 0xC0) := by decide
/-- Bits from `nbits` on are 0: the operand byte is cut off. -/
theorem test_decode_short_word : decodeTableWord 8 0b00000101_01000111 = some (.prn 0) := by decide
theorem test_decode_rejects_no_bytes : decodeBytes defaultOpc [] = .error .noOpcodeByte := by decide
theorem test_decode_rejects_missing_operand : decodeBytes defaultOpc [0x82, 0x00] = .error .missingOperand := by decide
theorem test_encode_ldi : encode defaultOpc (.ldi 3 200) = [0b10000010, 0b00000011, 0b11001000] := by decide

/-- A legal table that is not the default: HLT and RET change places. -/
def swappedOpc : Opc :=
  { core := fun m => match m with
      | .hlt => 0x11
      | .ret => 0x01
      | .ldi => defaultCore .ldi
      | .prn => defaultCore .prn
      | .mul => defaultCore .mul
      | .add => defaultCore .add
      | .pop => defaultCore .pop
      | .push => defaultCore .push
      | .call => defaultCore .call
    reserved := defaultReserved }

/-- A table that breaks R70: CALL of three bytes. -/
def badOpc : Opc :=
  { core := fun m => match m with
      | .call => 0x90
      | .hlt => 0x01
      | .ret => 0x11
      | .ldi => defaultCore .ldi
      | .prn => defaultCore .prn
      | .mul => defaultCore .mul
      | .add => defaultCore .add
      | .pop => defaultCore .pop
      | .push => defaultCore .push
    reserved := defaultReserved }

theorem test_other_table_decodes : opcLegal swappedOpc = true ∧ decode swappedOpc 0x01 0 0 = .ret := by decide
theorem test_bad_table_rejected :
    opcLegal badOpc = false ∧ decodeBytes badOpc [0x01] = .error .illegalOpc := by decide

/-! ### One step per test: HLT and PRN (vectors H2, P-2, Y6) -/

theorem test_hlt_at_top : after (step (at' 0xFF [0x01])) (fun s => (s.run, s.pc)) = some (.halted, 0x00) := by decide
theorem test_hlt_operands_unchecked :
    after (step (launch [0x01, 0xFF, 0xFF])) (fun s => (s.run, s.fr)) = some (.halted, none) := by decide
theorem test_prn_unsigned :
    after (exec (.prn 4) (State.reset.setReg 4 255)) (fun s => (s.out, s.pc)) = some ([255], 2) := by decide
theorem test_prn_straddles_the_top :
    after (step (at' 0xFF [0x47, 0x07])) (fun s => (s.out, s.pc)) = some ([244], 0x01) := by decide

/-! ### LDI, ADD and MUL (vectors Y5, L-3, A-2, A-5, M-2, M-5) -/

theorem test_ldi_straddles_the_top :
    after (step (at' 0xFE [0x82, 0x02, 0x09])) (fun s => (s.reg 2, s.pc)) = some (9, 0x01) := by decide
theorem test_ldi_moves_the_stack : after (step (launch [0x82, 0x07, 0x80])) (fun s => s.sp) = some 0x80 := by decide
theorem test_add_wraps :
    after (exec (.add 0 1) ((State.reset.setReg 0 200).setReg 1 100)) (fun s => (s.reg 0, s.reg 1, s.fl)) =
      some (44, 100, 0) := by decide
theorem test_add_to_stack_pointer :
    after (exec (.add 7 1) (State.reset.setReg 1 12)) (fun s => s.sp) = some 0x00 := by decide
theorem test_mul_wraps :
    after (exec (.mul 0 1) ((State.reset.setReg 0 255).setReg 1 255)) (fun s => (s.reg 0, s.pc)) = some (1, 3) := by
  decide
theorem test_mul_same_register : after (exec (.mul 2 2) (State.reset.setReg 2 15)) (fun s => s.reg 2) = some 225 := by
  decide

/-! ### PUSH and POP (vectors S2, S3, S6, S7) -/

theorem test_push_wraps :
    after (exec (.push 1) ((State.reset.setReg 7 0).setReg 1 0xAB)) (fun s => (s.sp, s.mem)) =
      some (0xFF, [(0xFF, 0xAB)]) := by decide
theorem test_push_stack_pointer :
    after (step (launch [0x45, 0x07])) (fun s => (s.mem.read 0xF3, s.sp, s.pc)) = some (0xF4, 0xF3, 2) := by decide
theorem test_pop_into_stack_pointer :
    after (exec (.pop 7) { State.reset.setReg 7 0xF3 with mem := [(0xF3, 0x20)] }) (fun s => s.sp) = some 0x20 := by
  decide
theorem test_pop_wraps :
    after (exec (.pop 0) { State.reset.setReg 7 0xFF with mem := [(0xFF, 9)] }) (fun s => (s.reg 0, s.sp, s.mem)) =
      some (9, 0x00, [(0xFF, 9)]) := by decide

/-! ### CALL and RET (vectors C3, C4, C6, C7) -/

theorem test_call_at_top :
    after (step ((at' 0xFF [0x50, 0x01]).setReg 1 0x20)) (fun s => (s.mem.read 0xF3, s.pc)) = some (0x01, 0x20) := by
  decide
theorem test_call_stack_pointer :
    after (step (at' 0x10 [0x50, 0x07])) (fun s => (s.sp, s.mem.read 0xF3, s.pc)) = some (0xF3, 0x12, 0xF3) := by
  decide
theorem test_ret_pops :
    after (exec .ret { State.reset.setReg 7 0xF3 with mem := [(0xF3, 0x08)] }) (fun s => (s.pc, s.sp)) =
      some (0x08, 0xF4) := by decide
theorem test_ret_empty_stack :
    after (step (launch [0x11, 0xFF])) (fun s => (s.run, s.pc, s.sp)) = some (.running, 0x00, 0xF5) := by decide

/-! ### Faults (vectors A-6, A-7, S9, F3, F4, Y4) -/

theorem test_bad_second_operand :
    after (step (launch [0xA0, 0x00, 0x08])) (fun s => (s.run, s.fr)) =
      some (.faulted, some ⟨0x02, 0x00, 0xA0, 0x08⟩) := by decide
theorem test_first_bad_operand_decides :
    after (step (launch [0xA0, 0x09, 0x08])) (fun s => s.fr) = some (some ⟨0x02, 0x00, 0xA0, 0x09⟩) := by decide
theorem test_bad_push_writes_nothing :
    after (step (launch [0x45, 0x08])) (fun s => (s.sp, s.mem.read 0xF3, s.pc)) = some (0xF4, 0, 0) := by decide
theorem test_reserved_faults :
    after (step (at' 0x03 [0xA7, 0x00, 0x01])) (fun s => (s.fr, s.fl)) = some (some ⟨0x01, 0x03, 0xA7, 0⟩, 0) := by
  decide
theorem test_illegal_before_operands :
    after (step (at' 0x03 [0xFF, 0x09, 0x09])) (fun s => (s.fr, s.pc)) = some (some ⟨0x01, 0x03, 0xFF, 0⟩, 0x03) := by
  decide

/-! ### Host (vectors B3, H3; W2's console text) -/

theorem test_empty_image_faults :
    after (andThen (boot [] State.reset) step) (fun s => (s.run, s.fr)) =
      some (.faulted, some ⟨0x01, 0x00, 0x00, 0⟩) := by decide
theorem test_reset_state_waits : after (step State.reset) (fun s => s.run) = some .inReset := by decide
theorem test_console_text : State.console { State.reset with out := [0, 44] } = "0\n44\n" := by decide
theorem test_assembly_text : (Instr.ldi 0 200).assembly = some "LDI r0,200" := by decide
theorem test_fetch_word_runs :
    after (step (State.reset.withFetchWord 24 0xC80082)) (fun s => (s.reg 0, s.pc)) = some (200, 3) := by decide

/-! ### Witnesses: states and operands that meet the hypotheses of the obligations -/

/-- Running, under a legal table: the premises of most step statements, for the default table and for another. -/
theorem witness_legal_running :
    opcLegal defaultOpc = true ∧ opcLegal swappedOpc = true ∧ (launch [0x01]).run = .running := by decide

theorem witness_LoadWritesTheNextCell : State.reset.run = .inReset ∧ (launch []).run ≠ .inReset := by decide

/-- The last of 257 bytes wraps to address 0, and address 2 is not covered by two bytes. -/
theorem witness_LoadedImageLastByteWins :
    (256 < (List.replicate 257 (9 : Byte)).length ∧ 256 % 256 = (0 : Byte).toNat ∧
      ∀ k, 256 < k → k < (List.replicate 257 (9 : Byte)).length → k % 256 ≠ (0 : Byte).toNat) ∧
    (∀ j, j < [(7 : Byte), 8].length → j % 256 ≠ (2 : Byte).toNat) := by
  refine ⟨⟨by rw [List.length_replicate]; decide, rfl, fun k h1 h2 => ?_⟩, fun j hj => ?_⟩
  · rw [List.length_replicate] at h2; omega
  · simp only [List.length_cons, List.length_nil] at hj
    have : (2 : Byte).toNat = 2 := rfl
    omega

theorem witness_BootReachesTheLaunchState : (launch []).run ≠ .inReset := by decide

theorem witness_HostActionsOutOfPlaceAreRefused :
    (launch []).run ≠ .inReset ∧ (launch []).run = .running ∧ State.reset.run ≠ .running ∧
    State.run { State.reset with run := .halted } ≠ .running ∧
    State.run { State.reset with run := .faulted } ≠ .running := by decide

/-- R30's list: `x[7]` (R38), a loaded byte (R121), `LA` after one Load, and the run state. -/
theorem test_inspect :
    State.reset.inspect (.reg 7) = .ok (.byte 0xF4) ∧ (State.reset.loadByte 5).inspect (.mem 0) = .ok (.byte 5) ∧
    (State.reset.loadByte 5).inspect .la = .ok (.byte 1) ∧ State.reset.inspect .run = .ok (.runState .inReset) :=
  ⟨rfl, rfl, rfl, rfl⟩

/-- A core instruction with the largest register, a reserved byte, and a byte no table names. -/
theorem witness_DecodeOfEncodeIsTheInstruction :
    (Instr.isCore (.mul 7 255) = true ∧ Instr.encodable swappedOpc (.mul 7 255) = true) ∧
    (reservedDistinct defaultOpc = true ∧ Instr.encodable defaultOpc .modReserved = true) ∧
    (reservedDistinct defaultOpc = true ∧ Instr.encodable defaultOpc (.anyOther 0xFF) = true) := by decide

theorem witness_LengthIsTopTwoBitsPlusOne : opcLegal defaultOpc = true ∧ defaultOpc.core .call = 0x50 := by decide

theorem witness_TopBitsElevenAreIllegal :
    (launch [0xC0]).run = .running ∧ operandCount ((launch [0xC0]).mem.read (launch [0xC0]).pc) = 3 ∧
    operandCount ((launch [0xFF]).mem.read (launch [0xFF]).pc) = 3 := by decide

theorem witness_OnlyLegalTablesRun : opcLegal defaultOpc = true ∧ opcLegal badOpc = false := by decide

/-- 0x82 is an opcode, and its neighbour 0x83 is none. -/
theorem witness_DecoderMatchesAllEightBits : defaultOpc.core .ldi = 0x82 ∧ ∀ m, defaultOpc.core m ≠ 0x83 :=
  ⟨rfl, fun m => by cases m <;> decide⟩

theorem witness_StoppedCoreStepChangesNothing :
    State.reset.run ≠ .running ∧ State.run { State.reset with run := .halted } ≠ .running ∧
    State.run { State.reset with run := .faulted } ≠ .running := by decide

/-- Two memories that differ at 0x40 and agree where `PUSH r0` reads. -/
theorem witness_StepTouchesOnlyItsAccesses :
    (∀ a, Access.read a ∈ accesses defaultOpc (launch [0x45, 0x00]) →
      Memory.read ((launch [0x45, 0x00]).mem.write 0x40 1) a = (launch [0x45, 0x00]).mem.read a) ∧
    Access.write 0xF3 ∈ accesses defaultOpc (launch [0x45, 0x00]) ∧
    Access.write 0x40 ∉ accesses defaultOpc (launch [0x45, 0x00]) := by
  have hacc : accesses defaultOpc (launch [0x45, 0x00]) = [.read 0, .read 1, .read 2, .write 0xF3] := by decide
  rw [hacc]
  refine ⟨fun a ha => ?_, by decide, by decide⟩
  simp only [List.mem_cons, Access.read.injEq, reduceCtorEq, List.not_mem_nil, or_false] at ha
  rcases ha with rfl | rfl | rfl <;> decide

/-- A step of each kind: an advance at the top of memory, a fault, a CALL and a RET. -/
theorem witness_ProgramCounterAdvancesByLength :
    after (step (at' 0xFE [0x82, 0x02, 0x09])) (fun s => s.run) = some .running ∧
    (at' 0xFE [0x82, 0x02, 0x09]).mem.read 0xFE ≠ defaultOpc.core .call ∧
    (at' 0xFE [0x82, 0x02, 0x09]).mem.read 0xFE ≠ defaultOpc.core .ret ∧
    after (step (launch [0x00])) (fun s => s.run) = some .faulted ∧
    (after (step (launch [0x50, 0x07])) (fun s => s.run) = some .running ∧
      (launch [0x50, 0x07]).mem.read 0 = defaultOpc.core .call) ∧
    (launch [0x11]).mem.read 0 = defaultOpc.core .ret := by decide

/-- Operand bytes above 7, at both ends of their range; the bad operand premise of the per-instruction statements. -/
theorem witness_bad_operand : 7 < (8 : Byte).toNat ∧ 7 < (255 : Byte).toNat := by decide

theorem witness_IllegalBytesRaiseIllegalInstruction : ∃ ir, Instr.anyOther 0x00 = .anyOther ir := ⟨0x00, rfl⟩

/-- A bad first operand, and a bad second operand after a good first one. -/
theorem witness_FirstBadOperandRaisesBadRegister :
    (Instr.add 9 8).regOperands = List.map regByte [] ++ (9 : Byte) :: [8] ∧
    (Instr.add 7 8).regOperands = List.map regByte [7] ++ (8 : Byte) :: [] := by decide

/-- Each kind of pending fault, and none. -/
theorem witness_FaultingStepIsPrecise :
    (launch [0x00]).pendingFault defaultOpc = some ⟨0x01, 0x00, 0x00, 0⟩ ∧
    (launch [0xA0, 0x09, 0x08]).pendingFault defaultOpc = some ⟨0x02, 0x00, 0xA0, 0x09⟩ ∧
    (launch [0xA0, 0x07, 0x08]).pendingFault defaultOpc = some ⟨0x02, 0x00, 0xA0, 0x08⟩ ∧
    (launch [0xA0, 0x07, 0x07]).pendingFault defaultOpc = none := by decide

theorem witness_AluSelectorsWriteOnlyMulAndAdd : AluSel.cmp ≠ .mul ∧ AluSel.cmp ≠ .add := by decide

/-- Changes that the premises of the whole-machine rules ask for do happen. -/
theorem witness_changes :
    after (exec (.push 0) (State.reset.setReg 0 5)) (fun s => s.mem.read 0xF3) = some 5 ∧
    after (exec (.ldi 7 1) State.reset) (fun s => s.reg 7) = some 1 ∧
    after (hostAct (.load 5) State.reset) (fun s => s.la) = some 1 := by decide

theorem witness_OnlyHltHalts : after (step (launch [0x01])) (fun s => s.run) = some .halted := by decide

theorem witness_FinalStatesAreLeftOnlyByReset :
    after (event defaultOpc .instruction { State.reset with run := .halted }) (fun s => s.run) = some .halted ∧
    after (event defaultOpc (.host .reset) { State.reset with run := .faulted }) (fun s => s.run) = some .inReset := by
  decide

theorem witness_EndedRunKeepsItsState :
    Event.host .reset ∉ [Event.instruction, .instruction] ∧
    after (runEvents defaultOpc [.instruction, .instruction] { State.reset with run := .faulted })
      (fun s => s.run) = some .faulted := by decide

/-- PUSH r0 at 0x00 whose slot is the next instruction's opcode byte, its first or second operand byte, and the PUSH's
own operand byte. -/
theorem witness_PushOverItsOwnBytesIsSeenByTheNextFetch :
    State.nextInstr defaultOpc ((launch [0x45, 0x00]).setReg 7 0x03) = .push (regByte 0) ∧
    State.pushAddr ((launch [0x45, 0x00]).setReg 7 0x03) = 0x00 + 2 ∧
    State.pushAddr ((launch [0x45, 0x00]).setReg 7 0x04) = 0x00 + 3 ∧
    State.pushAddr ((launch [0x45, 0x00]).setReg 7 0x05) = 0x00 + 4 ∧
    State.pushAddr ((launch [0x45, 0x00]).setReg 7 0x02) = 0x00 + 1 := by decide

theorem witness_MemoriesThatReadAlikeAreEqual :
    Memory.wf [(0, 1), (255, 2)] ∧ (Memory.write (Memory.write [] 255 2) 0 1) = [(0, 1), (255, 2)] := by decide

/-- The reset state and a running state about to push meet the invariant, and steps and host actions answer next. -/
theorem witness_invariant_steps :
    Inv defaultOpc State.reset ∧ Inv defaultOpc (launch [0x45, 0x00]) ∧
    after (step (launch [0x45, 0x00])) (fun s => s.pc) = some 2 ∧ after (step State.reset) (fun s => s.run) = some .inReset ∧
    after (runEvents defaultOpc [.host (.load 0x01), .host .release, .instruction] State.reset) (fun s => s.run) =
      some .halted :=
  ⟨⟨Memory.wf_nil, rfl, (fun h => nomatch h), fun _ => rfl, fun _ => ⟨rfl, rfl, rfl⟩⟩,
    ⟨storeBytes_wf Memory.wf_nil 0 _, rfl, (fun h => nomatch h), fun _ => rfl, (fun h => nomatch h)⟩,
    by decide, by decide, by decide⟩

end Sys2Proof.Tests
end

/-! ### Who writes the output channel `OUT` (10_state.md, R24) -/

namespace Sys2Proof.Machine

/-- PRN is the one instruction whose outcome differs from its start state in `OUT`: neither the other eight nor a
fault entry writes it. -/
theorem Ran.out_cases {i : Instr} {s t : State} (h : Ran i s t) :
    t.out = s.out ∨ ∃ k, i = .prn (regByte k) ∧ t.out = s.out ++ [s.reg k] := by
  cases h with
  | prn s k => exact .inr ⟨k, rfl, by simp⟩
  | _ => exact .inl (by simp)

/-- PRN of a register completes and appends that register's byte (R24, R88). -/
theorem exec_prn_out (i : RegIdx) (s : State) :
    ∃ t, exec (.prn (regByte i)) s = .next t ∧ t.out = s.out ++ [s.reg i] :=
  ⟨_, exec_prn s i, by simp⟩

/-- Load and Release leave `OUT` alone (R30). -/
theorem hostAct_out_of_ne_reset {a : HostAction} {s t : State} (ha : a ≠ .reset) (h : hostAct a s = .next t) :
    t.out = s.out := by
  rcases hostAct_next h with ⟨rfl, -⟩ | ⟨v, -, -, rfl⟩ | ⟨-, -, rfl⟩
  · exact absurd rfl ha
  · exact State.loadByte_out s v
  · rfl

/-- Settles O38: over the outcomes of every instruction, and over the host actions other than Reset. -/
theorem onlyPrnChangesTheOutput : Obligations.OnlyPrnChangesTheOutput :=
  ⟨fun _ _ _ h => (ran_of_exec h).out_cases, exec_prn_out, fun _ _ _ ha h => hostAct_out_of_ne_reset ha h⟩

end Sys2Proof.Machine

/-! ### The length bits and the opcode match (30_encoding.md, R62 to R70) -/

namespace Sys2Proof

/-- The top two bits of a byte are its quotient by 64 (R62). -/
theorem operandCount_eq_div (ir : Byte) : operandCount ir = ir.toNat / 64 := by
  rw [operandCount, BitVec.toNat_ushiftRight, Nat.shiftRight_eq_div_pow]

theorem operandCount_le_three (ir : Byte) : operandCount ir ≤ 3 := by
  have hlt := ir.isLt
  rw [operandCount_eq_div]
  omega

/-- None of the nine has the four bytes that top bits 11 announce (R64). -/
theorem requiredCount_lt_three (m : Mnemonic) : requiredCount m < 3 := by cases m <;> decide

theorem controls_len (m : Mnemonic) : (controls m).len = requiredCount m + 1 := by cases m <;> rfl

theorem encode_coreInstr_length (opc : Opc) (m : Mnemonic) (a b : Byte) :
    (encode opc (coreInstr m a b)).length = requiredCount m + 1 := by cases m <;> rfl

/-- A legal opcode announces the operand bytes of its mnemonic (R70's first condition). -/
theorem operandCount_core {opc : Opc} (h : opcLegal opc = true) (m : Mnemonic) :
    operandCount (opc.core m) = requiredCount m :=
  ((opcLegal_iff opc).1 h).1 m

/-- A legal table gives none of the nine an opcode with top bits 11. -/
theorem core_ne_of_operandCount_eq_three {opc : Opc} (h : opcLegal opc = true) {ir : Byte}
    (hir : operandCount ir = 3) (m : Mnemonic) : opc.core m ≠ ir := by
  rintro rfl
  have hlt := requiredCount_lt_three m
  rw [← operandCount_core h m, hir] at hlt
  exact absurd hlt (lt_irrefl 3)

/-- A byte that the table gives none of the nine decodes as ILLEGAL (R68). -/
theorem isCore_decode_of_core_ne {opc : Opc} {ir : Byte} (hne : ∀ m, opc.core m ≠ ir) (a b : Byte) :
    (decode opc ir a b).isCore = false := by
  refine Bool.eq_false_iff.2 fun hcore => ?_
  obtain ⟨m, hm⟩ := (isCore_decode_iff opc ir a b).1 hcore
  exact hne m hm

/-- What holds of all nine mnemonics, written out for each. -/
theorem Mnemonic.forall_iff (p : Mnemonic → Prop) :
    (∀ m, p m) ↔ p .hlt ∧ p .ldi ∧ p .prn ∧ p .mul ∧ p .add ∧ p .pop ∧ p .push ∧ p .call ∧ p .ret := by
  constructor
  · intro h
    exact ⟨h _, h _, h _, h _, h _, h _, h _, h _, h _⟩
  · rintro ⟨hhlt, hldi, hprn, hmul, hadd, hpop, hpush, hcall, hret⟩ m
    cases m <;> assumption

/-- R70's first condition on the nine opcodes, as quotients by 64. -/
theorem requiredCounts_iff (opc : Opc) :
    (∀ m, operandCount (opc.core m) = requiredCount m) ↔
      (opc.core .hlt).toNat / 64 = 0 ∧ (opc.core .ldi).toNat / 64 = 2 ∧ (opc.core .prn).toNat / 64 = 1 ∧
      (opc.core .mul).toNat / 64 = 2 ∧ (opc.core .add).toNat / 64 = 2 ∧ (opc.core .pop).toNat / 64 = 1 ∧
      (opc.core .push).toNat / 64 = 1 ∧ (opc.core .call).toNat / 64 = 1 ∧ (opc.core .ret).toNat / 64 = 0 := by
  simp only [Mnemonic.forall_iff, operandCount_eq_div, requiredCount]

end Sys2Proof

namespace Sys2Proof.Machine

/-- An ILLEGAL instruction asks for no data access (R32). -/
theorem memOp_illegal {i : Instr} (h : i.isCore = false) : memOp i = .none := by
  unfold Instr.isCore at h
  unfold memOp
  cases hc : i.opClass with
  | core m => rw [hc] at h; cases h
  | reserved r => rfl
  | other => rfl

/-- An ILLEGAL instruction makes no access beyond the three fetch reads (R55, R64). -/
theorem accesses_illegal {opc : Opc} {s : State} (h : (s.nextInstr opc).isCore = false) :
    accesses opc s = [.read s.pc, .read (s.pc + 1), .read (s.pc + 2)] := by
  simp only [accesses, dataAccess, memOp_illegal h, ite_self, List.append_nil]

/-- A running CORE that fetched an ILLEGAL byte enters IllegalInstruction on the fetched state (R81, R105). -/
theorem stepWith_illegalInstr {opc : Opc} (h : opcLegal opc = true) {s : State} (hr : s.run = .running)
    (hi : (s.nextInstr opc).isCore = false) : stepWith opc s = .next s.fetch.raiseIllegal := by
  rw [stepWith_running h hr, exec_illegal hi]

/-- Under a legal table every state has a next one; outside `running` it is the state itself (log entry 5). -/
theorem stepWith_completes {opc : Opc} (h : opcLegal opc = true) (s : State) : ∃ t, stepWith opc s = .next t := by
  by_cases hr : s.run = .running
  · obtain ⟨t, ht, -⟩ := stepWith_ran h hr
    exact ⟨t, ht⟩
  · exact ⟨s, stepWith_stopped h hr⟩

/-- Settles O11: the opcode, the encoding and the class of a mnemonic all carry its `requiredCount`. -/
theorem lengthIsTopTwoBitsPlusOne : Obligations.LengthIsTopTwoBitsPlusOne := by
  refine ⟨fun ir => ⟨operandCount_eq_div ir, operandCount_le_three ir⟩, ?_⟩
  rintro opc m _ a b h rfl
  rw [operandCount_core h]
  exact ⟨by rw [decode_core h, encode_coreInstr_length], controls_len m⟩

/-- Settles O12: no legal opcode has top bits 11, so the fetched byte is ILLEGAL. -/
theorem topBitsElevenAreIllegal : Obligations.TopBitsElevenAreIllegal := by
  intro opc s h hr hthree
  have hi : (s.nextInstr opc).isCore = false :=
    isCore_decode_of_core_ne (core_ne_of_operandCount_eq_three h hthree) _ _
  exact ⟨hi, accesses_illegal hi, _, stepWith_illegalInstr h hr hi, rfl, rfl, rfl⟩

/-- Settles O13: `opcLegal_iff` with its first condition written out and the other two turned round. -/
theorem onlyLegalTablesRun : Obligations.OnlyLegalTablesRun := by
  refine fun opc => ⟨(opcLegal_iff opc).trans ?_, stepWith_completes, stepWith_illegalOpc⟩
  refine and_congr (requiredCounts_iff opc) (and_congr ?_ ?_)
  · exact forall₂_congr fun _ _ => not_imp_not.symm
  · exact forall₂_congr fun _ _ => ne_comm

/-- Settles O14: `decode_core` at each of the nine; the unused bytes do not occur in `coreInstr`. -/
theorem operandRolesPerInstruction : Obligations.OperandRolesPerInstruction := by
  intro opc h a b
  have dec := fun m => decode_core h m a b
  exact ⟨⟨dec .ldi, rfl⟩, ⟨dec .mul, rfl⟩, ⟨dec .add, rfl⟩, ⟨dec .prn, rfl⟩, ⟨dec .pop, rfl⟩,
    ⟨dec .push, rfl⟩, ⟨dec .call, rfl⟩, ⟨dec .hlt, rfl⟩, ⟨dec .ret, rfl⟩⟩

/-- Settles O15: an opcode is decoded to its own class, and any other byte runs as fault entry. -/
theorem decoderMatchesAllEightBits : Obligations.DecoderMatchesAllEightBits := by
  intro opc ir a b h
  refine ⟨?_, fun hne => ?_⟩
  · rintro m rfl
    rw [opClass_decode, decodeClass_core h]
  · have hi := isCore_decode_of_core_ne hne a b
    exact ⟨hi, fun s => ⟨_, exec_illegal hi s, rfl, rfl⟩⟩

end Sys2Proof.Machine

/-! ### The cycle of a running CORE (40_cycle.md, R78 to R85) -/

namespace Sys2Proof

/-- A legal table gives no two of the nine one opcode (R70's second condition). -/
theorem core_inj {opc : Opc} (h : opcLegal opc = true) {m n : Mnemonic} (hmn : opc.core m = opc.core n) : m = n :=
  ((opcLegal_iff opc).1 h).2.1 m n hmn

/-- The search of the nine for an opcode byte finds its mnemonic (R68). -/
theorem find?_core {opc : Opc} (h : opcLegal opc = true) {m : Mnemonic} {ir : Byte} (hm : opc.core m = ir) :
    (Mnemonic.all.find? fun n => opc.core n == ir) = some m := by
  rw [← hm]
  exact find?_key Mnemonic.mem_all (fun _ _ => core_inj h) m

/-- The search of the nine finds nothing for a byte that is no opcode (R68). -/
theorem find?_core_eq_none {opc : Opc} {ir : Byte} (hne : ∀ m, opc.core m ≠ ir) :
    (Mnemonic.all.find? fun n => opc.core n == ir) = none :=
  List.find?_eq_none.2 fun m _ => by simpa only [beq_iff_eq] using hne m

end Sys2Proof

namespace Sys2Proof.Machine

/-- The reference's operand check is the model's (R82). -/
theorem seven_lt_eq_not_isRegIndex (v : Byte) : decide (7 < v.toNat) = !isRegIndex v := by
  simp only [isRegIndex, ← decide_not, not_le]

/-- The first byte above 7 of a list that starts with register indices. -/
theorem find?_bad_of_good_before (before : List RegIdx) {v : Byte} (hv : 7 < v.toNat) (after : List Byte) :
    (before.map regByte ++ v :: after).find? (fun v => !isRegIndex v) = some v := by
  have hgood : (before.map regByte).find? (fun v => !isRegIndex v) = none := by simp
  rw [List.find?_append, hgood, Option.none_or, List.find?_cons_of_pos]
  simp only [isRegIndex_bad hv, Bool.not_false]

/-- Operand bytes among which the check finds none to refuse are indices of registers (R66, R82). -/
theorem eq_regByte_of_find?_none {l : List Byte} (h : l.find? (fun v => !isRegIndex v) = none) :
    ∀ v ∈ l, ∃ i, v = regByte i := by
  intro v hv
  refine (operand_cases v).resolve_right fun hbad => ?_
  simpa [isRegIndex_bad hbad] using List.find?_eq_none.1 h v hv

@[simp] theorem operandReg_regByte (i : RegIdx) : operandReg (regByte i) = i := by
  simp only [operandReg, regByte_toNat, Fin.ofNat_val_eq_self]

/-- A fault writes `run` and `FR` alone (R109). -/
theorem SameBesidesFault.raise (s : State) (c v : Byte) : SameBesidesFault s (s.raise c v) :=
  ⟨fun _ => rfl, rfl, fun _ => rfl, rfl, rfl, rfl⟩

/-- The length that the top bits of `IR` give is the decoder's output `len` (R32, R83). -/
theorem shift_add_one_eq_len {opc : Opc} (h : opcLegal opc = true) {m : Mnemonic} {ir : Byte} (hm : opc.core m = ir) :
    (ir >>> 6) + 1 = BitVec.ofNat 8 (controls m).len := by
  rw [controls_len, ← operandCount_core h, hm, operandCount, BitVec.ofNat_add, BitVec.ofNat_toNat,
    BitVec.setWidth_eq]
  rfl

/-- CALL and RET alone suppress the operand advance (R83). -/
theorem suppressAdvance_eq_false {m : Mnemonic} (hcall : m ≠ .call) (hret : m ≠ .ret) :
    (controls m).suppressAdvance = false := by
  cases m with
  | call => exact absurd rfl hcall
  | ret => exact absurd rfl hret
  | _ => rfl

/-! ### The case lines of the reference composition -/

/-- The reference's `suppress` is the decoder's `suppress_advance` (R32, R85). -/
theorem referenceEffect_suppress (m : Mnemonic) (a b : Byte) (s : State) :
    (referenceEffect m a b s).2 = (controls m).suppressAdvance := by cases m <;> rfl

/-- Only HLT changes the run state (R87). -/
theorem referenceEffect_run (m : Mnemonic) (a b : Byte) (s : State) :
    (referenceEffect m a b s).1.run = if m = .hlt then .halted else s.run := by cases m <;> rfl

/-- What does not suppress the advance leaves the pc to it (R83). -/
theorem referenceEffect_pc {m : Mnemonic} (hadv : (controls m).suppressAdvance = false) (a b : Byte) (s : State) :
    (referenceEffect m a b s).1.pc = s.pc := by
  cases m with
  | call => cases hadv
  | ret => cases hadv
  | _ => rfl

/-- The line `CALL` of R85 as a push and a jump of the model (R96, R101). -/
theorem referenceEffect_call (i : RegIdx) (b : Byte) (s : State) :
    (referenceEffect .call (regByte i) b s).1 = (s.push (s.pc + 2)).jump ((s.push (s.pc + 2)).reg i) := by
  simp [referenceEffect, State.push, State.setSp, Config.spIndex, State.jump]

/-- With its register operands checked, each of the nine runs its case line of R85 and then ends with the advance. -/
theorem exec_coreInstr {m : Mnemonic} {a b : Byte} (h : ∀ v ∈ (coreInstr m a b).regOperands, ∃ i, v = regByte i)
    (s : State) : exec (coreInstr m a b) s = .next ((referenceEffect m a b s).1.finish m) := by
  cases m with
  | hlt => exact exec_hlt s
  | ret => exact exec_ret s
  | ldi =>
    obtain ⟨i, rfl⟩ := h a List.mem_cons_self
    simp only [coreInstr, exec_ldi, referenceEffect, operandReg_regByte]
  | prn =>
    obtain ⟨i, rfl⟩ := h a List.mem_cons_self
    simp only [coreInstr, exec_prn, referenceEffect, operandReg_regByte, State.emit]
  | pop =>
    obtain ⟨i, rfl⟩ := h a List.mem_cons_self
    simp only [coreInstr, exec_pop, referenceEffect, operandReg_regByte, State.setSp, Config.spIndex]
  | push =>
    obtain ⟨i, rfl⟩ := h a List.mem_cons_self
    simp [coreInstr, exec_push, referenceEffect, State.push, State.setSp, Config.spIndex]
  | call =>
    obtain ⟨i, rfl⟩ := h a List.mem_cons_self
    rw [coreInstr, exec_call, referenceEffect_call]
  | mul =>
    obtain ⟨i, rfl⟩ := h a List.mem_cons_self
    obtain ⟨j, rfl⟩ := h b (List.mem_cons_of_mem _ List.mem_cons_self)
    simp only [coreInstr, exec_mul, referenceEffect, operandReg_regByte]
  | add =>
    obtain ⟨i, rfl⟩ := h a List.mem_cons_self
    obtain ⟨j, rfl⟩ := h b (List.mem_cons_of_mem _ List.mem_cons_self)
    simp only [coreInstr, exec_add, referenceEffect, operandReg_regByte]

/-- The pc after the case line of an instruction that does not suppress the advance (R83). -/
theorem referenceEffect_finish_pc_toNat {opc : Opc} (h : opcLegal opc = true) {m : Mnemonic}
    (hadv : (controls m).suppressAdvance = false) (a b : Byte) (s : State) :
    ((referenceEffect m a b s).1.finish m).pc.toNat = (s.pc.toNat + ((opc.core m).toNat / 64 + 1)) % 256 := by
  rw [State.finish_pc, hadv, if_neg Bool.false_ne_true, referenceEffect_pc hadv, controls_len,
    ← operandCount_core h, operandCount_eq_div, BitVec.toNat_add, BitVec.toNat_ofNat, Nat.add_mod_mod]

/-- The pc after CALL through register `i`, which is read after the push (R101). -/
theorem referenceEffect_call_finish_pc (i : RegIdx) (b : Byte) (s : State) :
    ((referenceEffect .call (regByte i) b s).1.finish .call).pc = if i = 7 then s.reg 7 - 1 else s.reg i := by
  simp only [State.finish_pc, controls, if_true, referenceEffect_call, State.jump_pc, State.push_reg]

/-- The pc after RET is the byte at the stack pointer (R102). -/
theorem referenceEffect_ret_finish_pc (a b : Byte) (s : State) :
    ((referenceEffect .ret a b s).1.finish .ret).pc = s.mem.read (s.reg 7) := rfl

/-- The case line of one of the nine enters no fault (R85). -/
theorem referenceEffect_finish_run_ne_faulted (m : Mnemonic) (a b : Byte) {s : State} (hr : s.run = .running) :
    ((referenceEffect m a b s).1.finish m).run ≠ .faulted := by
  rw [State.finish_run, referenceEffect_run, hr]
  split <;> decide

/-! ### The step by its three outcomes -/

/-- The three outcomes of a running CORE's step, each with its condition on the fetched bytes: IllegalInstruction,
BadRegister, or the case line of one of the nine (R81, R82, R85). -/
inductive Cycle (opc : Opc) (s : State) : State → Prop
  | illegal (h : ∀ m, opc.core m ≠ s.mem.read s.pc) : Cycle opc s s.fetch.raiseIllegal
  | badRegister (m : Mnemonic) (v : Byte) (hm : opc.core m = s.mem.read s.pc)
      (hv : (coreInstr m s.fetch.opA s.fetch.opB).regOperands.find? (fun v => !isRegIndex v) = some v) :
      Cycle opc s (s.fetch.raiseBadRegister v)
  | effect (m : Mnemonic) (hm : opc.core m = s.mem.read s.pc)
      (hgood : (coreInstr m s.fetch.opA s.fetch.opB).regOperands.find? (fun v => !isRegIndex v) = none) :
      Cycle opc s ((referenceEffect m s.fetch.opA s.fetch.opB s.fetch).1.finish m)

/-- A running CORE's step has one of the three outcomes. -/
theorem stepWith_cycle {opc : Opc} (h : opcLegal opc = true) {s : State} (hr : s.run = .running) :
    ∃ t, stepWith opc s = .next t ∧ Cycle opc s t := by
  by_cases hcore : ∃ m, opc.core m = s.mem.read s.pc
  · obtain ⟨m, hm⟩ := hcore
    have hi : s.nextInstr opc = coreInstr m s.fetch.opA s.fetch.opB := by
      rw [← nextInstr_eq, State.fetch_ir, ← hm, decode_core h]
    rw [stepWith_running h hr, hi]
    cases hf : (coreInstr m s.fetch.opA s.fetch.opB).regOperands.find? (fun v => !isRegIndex v) with
    | some v => exact ⟨_, exec_badRegister hf _, .badRegister m v hm hf⟩
    | none => exact ⟨_, exec_coreInstr (eq_regByte_of_find?_none hf) _, .effect m hm hf⟩
  · have hne : ∀ m, opc.core m ≠ s.mem.read s.pc := fun m hm => hcore ⟨m, hm⟩
    exact ⟨_, stepWith_illegalInstr h hr (isCore_decode_of_core_ne hne _ _), .illegal hne⟩

/-- Each outcome of the cycle is the state the reference composition answers. -/
theorem Cycle.eq_referenceStep {opc : Opc} (h : opcLegal opc = true) {s t : State} (hr : s.run = .running)
    (hc : Cycle opc s t) : t = referenceStep opc s := by
  simp only [referenceStep, if_pos hr, seven_lt_eq_not_isRegIndex]
  cases hc with
  | illegal hne =>
    rw [find?_core_eq_none hne]
    rfl
  | badRegister m v hm hv =>
    rw [State.fetch_opA, State.fetch_opB] at hv
    simp only [find?_core h hm, hv]
    rfl
  | effect m hm hgood =>
    rw [State.fetch_opA, State.fetch_opB] at hgood
    simp only [find?_core h hm, hgood, referenceEffect_suppress, shift_add_one_eq_len h hm]
    rfl

/-- Settles O16: the model's step, with the fetch written out. -/
theorem stepRunsTheDecodedInstruction : Obligations.StepRunsTheDecodedInstruction :=
  ⟨fun _ _ h hr => stepWith_running h hr, fun _ => rfl⟩

/-- Settles O19: the step has one of the three outcomes of the cycle, and the reference answers each of them. -/
theorem stepAgreesWithReferenceComposition : Obligations.StepAgreesWithReferenceComposition := by
  intro opc s h hr
  obtain ⟨t, ht, hc⟩ := stepWith_cycle h hr
  rw [ht, hc.eq_referenceStep h hr]

/-- Settles O33: `exec_badRegister` for the first operand byte that the check refuses. -/
theorem firstBadOperandRaisesBadRegister : Obligations.FirstBadOperandRaisesBadRegister := by
  intro i s before v after hops hv
  have hfirst := find?_bad_of_good_before before hv after
  rw [← hops] at hfirst
  exact ⟨_, exec_badRegister hfirst s, rfl, rfl, .raise s _ v, rfl, rfl, rfl⟩

/-- Settles O22: over the three outcomes of the cycle. -/
theorem programCounterAdvancesByLength : Obligations.ProgramCounterAdvancesByLength := by
  intro opc s h hr
  obtain ⟨t, ht, hc⟩ := stepWith_cycle h hr
  refine ⟨t, ht, ?_⟩
  cases hc with
  | illegal hne =>
    exact ⟨fun _ => rfl, fun hf => absurd rfl hf, fun hf => absurd rfl hf, fun hret => absurd hret.symm (hne .ret)⟩
  | badRegister m v hm hv =>
    refine ⟨fun _ => rfl, fun hf => absurd rfl hf, fun hf => absurd rfl hf, fun hret => ?_⟩
    obtain rfl := core_inj h (hm.trans hret)
    simp [coreInstr, Instr.regOperands] at hv
  | effect m hm hgood =>
    have hrun := referenceEffect_finish_run_ne_faulted m s.fetch.opA s.fetch.opB (s := s.fetch) hr
    refine ⟨fun hf => absurd hf hrun, fun _ hcall hret => ?_, fun _ hcall => ?_, fun hret => ?_⟩
    · rw [← hm] at hcall hret ⊢
      have hadv := suppressAdvance_eq_false (ne_of_apply_ne _ hcall) (ne_of_apply_ne _ hret)
      exact referenceEffect_finish_pc_toNat h hadv _ _ s.fetch
    · obtain rfl := core_inj h (hm.trans hcall)
      obtain ⟨i, hi⟩ := eq_regByte_of_find?_none hgood s.fetch.opA List.mem_cons_self
      rw [hi]
      exact ⟨i, hi, referenceEffect_call_finish_pc i _ s.fetch⟩
    · obtain rfl := core_inj h (hm.trans hret)
      exact referenceEffect_ret_finish_pc _ _ s.fetch

end Sys2Proof.Machine

/-! ### What the statements about one instruction share -/

namespace Sys2Proof.Machine

/-- Each of the nine is encoded by its opcode and the operand bytes it requires (R62, R63, R68). -/
theorem encodedAs_coreInstr (m : Mnemonic) : EncodedAs m (requiredCount m + 1) (coreInstr m) :=
  fun _ h a b => ⟨decode_core h m a b, congrArg (· + 1) (operandCount_core h m)⟩

/-- Where the operand advance is not suppressed, the pc goes on by the instruction's length, modulo 256 (R83). -/
theorem State.finish_pc_toNat (s : State) {m : Mnemonic} (hadv : (controls m).suppressAdvance = false) :
    (s.finish m).pc.toNat = (s.pc.toNat + (controls m).len) % 256 := by
  rw [State.finish_pc, hadv, if_neg Bool.false_ne_true, BitVec.toNat_add, BitVec.toNat_ofNat, Nat.add_mod_mod]

/-- The end of an instruction writes none of the elements that `SameControl` names (R83). -/
theorem SameControl.finish {s t : State} (h : SameControl s t) (m : Mnemonic) : SameControl s (t.finish m) := by
  obtain ⟨hfl, hfr, hla, hir, hopA, hopB⟩ := h
  exact ⟨(t.finish_fl m).trans hfl, (t.finish_fr m).trans hfr, (t.finish_la m).trans hla,
    (t.finish_ir m).trans hir, (t.finish_opA m).trans hopA, (t.finish_opB m).trans hopB⟩

/-- The first register operand that follows good ones and is above 7 raises BadRegister (R82, R106). -/
theorem raisesBadRegister_of_regOperands {i : Instr} (before : List RegIdx) {v : Byte} {after : List Byte}
    (hops : i.regOperands = before.map regByte ++ v :: after) (hv : 7 < v.toNat) (s : State) :
    RaisesBadRegister s v (exec i s) :=
  exec_badRegister (hops ▸ find?_bad_of_good_before before hv after) s

end Sys2Proof.Machine

/-! ### HLT and PRN (41_system.md, R87 and R88) -/

namespace Sys2Proof.Machine

/-- `Emit` writes none of the elements that `SameControl` names (R24). -/
theorem SameControl.emit (s : State) (v : Byte) : SameControl s (s.emit v) :=
  ⟨rfl, rfl, rfl, rfl, rfl, rfl⟩

/-- Settles O23: HLT writes `run` and then ends with the advance by its length. -/
theorem hltHaltsAndAdvances : Obligations.HltHaltsAndAdvances := by
  refine ⟨encodedAs_coreInstr .hlt, fun s => ⟨_, exec_hlt s, ?_⟩⟩
  have hcontrol : SameControl s { s with run := .halted } := ⟨rfl, rfl, rfl, rfl, rfl, rfl⟩
  exact ⟨rfl, State.finish_pc_toNat _ rfl, fun _ => rfl, fun _ => rfl, rfl, hcontrol.finish .hlt⟩

/-- Settles O24: PRN of a register emits its byte and ends with the advance; another operand byte is refused by the
check of the only register operand. -/
theorem prnEmitsTheRegister : Obligations.PrnEmitsTheRegister := by
  refine ⟨encodedAs_coreInstr .prn, fun s i => ⟨_, exec_prn s i, ?_⟩, fun s a ha => ?_⟩
  · exact ⟨rfl, State.finish_pc_toNat _ rfl, fun _ => rfl, fun _ => rfl, rfl,
      (SameControl.emit s (s.reg i)).finish .prn⟩
  · exact raisesBadRegister_of_regOperands [] rfl ha s

end Sys2Proof.Machine

/-! ### LDI, MUL and ADD, the ALU and the flags register (42_alu.md, R90 to R95) -/

namespace Sys2Proof.Machine

/-- A register write writes none of the elements that `SameControl` names (R14). -/
theorem SameControl.setReg (s : State) (i : RegIdx) (v : Byte) : SameControl s (s.setReg i v) :=
  ⟨rfl, rfl, rfl, rfl, rfl, rfl⟩

/-- The registers of an instruction that ends after a register write (R14, R83). -/
theorem State.setReg_finish_reg (s : State) (i : RegIdx) (v : Byte) (m : Mnemonic) (k : RegIdx) :
    ((s.setReg i v).finish m).reg k = if k = i then v else s.reg k := by
  rw [State.finish_reg, State.setReg_reg]

/-- Outside the registers, an instruction that ends after a register write advances the pc and changes nothing. -/
theorem State.setReg_finish_frame (s : State) (i : RegIdx) (v : Byte) {m : Mnemonic}
    (hadv : (controls m).suppressAdvance = false) :
    ((s.setReg i v).finish m).pc.toNat = (s.pc.toNat + (controls m).len) % 256 ∧
    (∀ a, ((s.setReg i v).finish m).mem.read a = s.mem.read a) ∧
    ((s.setReg i v).finish m).out = s.out ∧ ((s.setReg i v).finish m).run = s.run ∧
    SameControl s ((s.setReg i v).finish m) := by
  refine ⟨State.finish_pc_toNat _ hadv, fun a => ?_, State.finish_out _ m, State.finish_run _ m,
    (SameControl.setReg s i v).finish m⟩
  rw [State.finish_mem, State.setReg_mem]

/-- Settles O25: LDI of a register is one register write and the advance; its register operand is the only one
checked. -/
theorem ldiWritesTheImmediate : Obligations.LdiWritesTheImmediate := by
  refine ⟨encodedAs_coreInstr .ldi, fun s i imm => ⟨_, exec_ldi s i imm, State.setReg_finish_reg s i imm .ldi,
    State.setReg_finish_frame s i imm rfl⟩, fun s a imm ha => ?_⟩
  exact raisesBadRegister_of_regOperands [] rfl ha s

/-- Settles O26: MUL of two registers is one register write, of their product, and the advance. -/
theorem mulMultipliesModulo256 : Obligations.MulMultipliesModulo256 := by
  refine ⟨encodedAs_coreInstr .mul, fun s i j => ⟨_, exec_mul s i j, ?_, fun k hk => ?_,
    State.setReg_finish_frame s i _ rfl⟩, fun s a b ha => ?_, fun s i b hb => ?_⟩
  · rw [State.setReg_finish_reg, if_pos rfl, BitVec.toNat_mul]
  · rw [State.setReg_finish_reg, if_neg hk]
  · exact raisesBadRegister_of_regOperands [] rfl ha s
  · exact raisesBadRegister_of_regOperands [i] rfl hb s

/-- Settles O27: ADD of two registers is one register write, of their sum, and the advance. -/
theorem addAddsModulo256 : Obligations.AddAddsModulo256 := by
  refine ⟨encodedAs_coreInstr .add, fun s i j => ⟨_, exec_add s i j, ?_, fun k hk => ?_,
    State.setReg_finish_frame s i _ rfl⟩, fun s a b ha => ?_, fun s i b hb => ?_⟩
  · rw [State.setReg_finish_reg, if_pos rfl, BitVec.toNat_add]
  · rw [State.setReg_finish_reg, if_neg hk]
  · exact raisesBadRegister_of_regOperands [] rfl ha s
  · exact raisesBadRegister_of_regOperands [i] rfl hb s

/-- Only the selectors of MUL and ADD have a result (R91). -/
theorem aluResult_eq_none {sel : AluSel} (hmul : sel ≠ .mul) (hadd : sel ≠ .add) (a b : Byte) :
    aluResult sel a b = none := by
  cases sel with
  | mul => exact absurd rfl hmul
  | add => exact absurd rfl hadd
  | _ => rfl

/-- The ALU writes nothing where it has no result (R90, R91). -/
theorem State.alu_of_aluResult_eq_none {s : State} {sel : AluSel} {i j : RegIdx}
    (h : aluResult sel (s.reg i) (s.reg j) = none) : s.alu sel i j = s := by
  simp only [State.alu, h]

/-- No class has a reserved selector (R32, R91). -/
theorem controls_alu (m : Mnemonic) :
    (controls m).alu = .none ∨ (controls m).alu = .mul ∨ (controls m).alu = .add := by
  cases m with
  | mul => exact .inr (.inl rfl)
  | add => exact .inr (.inr rfl)
  | _ => exact .inl rfl

/-- Settles O35: MUL and ADD are register writes of the model's product and sum, and every other selector is without a
result. -/
theorem aluSelectorsWriteOnlyMulAndAdd : Obligations.AluSelectorsWriteOnlyMulAndAdd := by
  refine ⟨fun s i j k => ⟨?_, ?_⟩, fun s i j sel hmul hadd =>
    State.alu_of_aluResult_eq_none (aluResult_eq_none hmul hadd _ _), controls_alu⟩
  · rw [State.alu_mul, State.setReg_reg, apply_ite BitVec.toNat, BitVec.toNat_mul]
  · rw [State.alu_add, State.setReg_reg, apply_ite BitVec.toNat, BitVec.toNat_add]

/-- The ALU does the same whatever `FL` holds (R92). -/
theorem State.alu_withFl (s : State) (v : Byte) (sel : AluSel) (i j : RegIdx) :
    State.alu { s with fl := v } sel i j = { s.alu sel i j with fl := v } := by
  simp only [State.alu, State.mk_reg]
  cases aluResult sel (s.reg i) (s.reg j) <;> rfl

/-- No instruction and no fault writes `FL` (R20, R92, R109). -/
theorem Ran.fl {i : Instr} {s t : State} (h : Ran i s t) : t.fl = s.fl := by
  cases h <;> rfl

/-- What an instruction does is the same with another byte in `FL` (R20). -/
theorem Ran.withFl {i : Instr} {s t : State} (h : Ran i s t) (v : Byte) :
    Ran i { s with fl := v } { t with fl := v } := by
  cases h with
  | hlt => exact .hlt _
  | ldi _ x imm => exact .ldi { s with fl := v } x imm
  | prn _ x => exact .prn { s with fl := v } x
  | mul _ x y => exact .mul { s with fl := v } x y
  | add _ x y => exact .add { s with fl := v } x y
  | pop _ x => exact .pop { s with fl := v } x
  | push _ x => exact .push { s with fl := v } x
  | call _ x => exact .call { s with fl := v } x
  | ret => exact .ret { s with fl := v }
  | illegal _ _ hi => exact .illegal i { s with fl := v } hi
  | badRegister _ _ x hx => exact .badRegister i { s with fl := v } x hx

/-- Settles O37: over the outcomes of an instruction, each of which keeps `FL` and is the same with another byte
there. -/
theorem flagsRegisterIsNeitherReadNorWritten : Obligations.FlagsRegisterIsNeitherReadNorWritten := by
  refine ⟨fun s sel i j v => ⟨State.alu_fl s sel i j, State.alu_withFl s v sel i j⟩, fun i s v => ?_⟩
  obtain ⟨t, ht, hran⟩ := exec_ran i s
  exact ⟨t, ht, hran.fl, exec_of_ran (hran.withFl v)⟩

end Sys2Proof.Machine

/-! ### Push and pop, POP and PUSH (43_stack.md, R96, R97, R99 and R100) -/

namespace Sys2Proof.Machine

/-- `SP` less one, modulo 256, is the address a push writes (R96). -/
theorem State.pushAddr_toNat (s : State) : s.pushAddr.toNat = ((s.reg 7).toNat + 255) % 256 := by
  rw [State.pushAddr_eq, BitVec.toNat_sub, Nat.add_comm]
  rfl

/-- A push leaves the stack pointer at the address it writes (R96). -/
theorem State.push_reg_sp (s : State) (v : Byte) : (s.push v).reg 7 = s.pushAddr := by
  rw [State.push_reg, if_pos rfl, State.pushAddr_eq]

/-- A push writes no register but the stack pointer (R96). -/
theorem State.push_reg_of_ne (s : State) (v : Byte) {k : RegIdx} (hk : k ≠ 7) : (s.push v).reg k = s.reg k := by
  rw [State.push_reg, if_neg hk]

/-- Memory after a push: its byte at `pushAddr`, and every other address as before (R96). -/
theorem State.push_mem_read (s : State) (v a : Byte) :
    (s.push v).mem.read a = if a = s.pushAddr then v else s.mem.read a := by
  rw [State.push_mem, Memory.read_write, State.sp_eq, State.pushAddr_eq]

/-- `SP` goes up by one, modulo 256 (R97). -/
theorem State.setSp_succ_reg_sp_toNat (s : State) :
    ((s.setSp (s.reg 7 + 1)).reg 7).toNat = ((s.reg 7).toNat + 1) % 256 := by
  rw [State.setSp_reg, if_pos rfl, BitVec.toNat_add]
  rfl

/-- A write of the stack pointer writes no other register (R16). -/
theorem State.setSp_reg_of_ne (s : State) (v : Byte) {k : RegIdx} (hk : k ≠ 7) : (s.setSp v).reg k = s.reg k := by
  rw [State.setSp_reg, if_neg hk]

/-- Settles O36: a push is one write of `SP` and of the byte at `pushAddr`, and a pop one read and one write of
`SP`. -/
theorem stackPrimitivesMoveByOne : Obligations.StackPrimitivesMoveByOne := by
  refine fun s v => ⟨⟨?_, fun k hk => s.push_reg_of_ne v hk, ?_, fun a ha => ?_, rfl⟩,
    rfl, s.setSp_succ_reg_sp_toNat, fun k hk => s.setSp_reg_of_ne _ hk, rfl⟩
  · rw [State.push_reg_sp, State.pushAddr_toNat]
  · rw [State.push_reg_sp, State.push_mem_read, if_pos rfl]
  · rw [State.push_reg_sp] at ha
    rw [State.push_mem_read, if_neg ha]

/-- `SameControl` goes through a state between. -/
theorem SameControl.trans {s t u : State} (hst : SameControl s t) (htu : SameControl t u) : SameControl s u := by
  obtain ⟨hfl, hfr, hla, hir, hopA, hopB⟩ := hst
  obtain ⟨hfl', hfr', hla', hir', hopA', hopB'⟩ := htu
  exact ⟨hfl'.trans hfl, hfr'.trans hfr, hla'.trans hla, hir'.trans hir, hopA'.trans hopA, hopB'.trans hopB⟩

/-- A push writes none of the elements that `SameControl` names (R96). -/
theorem SameControl.push (s : State) (v : Byte) : SameControl s (s.push v) :=
  ⟨rfl, rfl, rfl, rfl, rfl, rfl⟩

/-- Settles O28: POP is the pop's write of `SP`, then the write of its register, which for r7 overwrites it, and the
advance. -/
theorem popLoadsFromTheStack : Obligations.PopLoadsFromTheStack := by
  refine ⟨encodedAs_coreInstr .pop, fun s i => ⟨_, exec_pop s i, ?_, fun hi => ?_, fun k hk hk7 => ?_, ?_⟩,
    fun s a ha => raisesBadRegister_of_regOperands [] rfl ha s⟩
  · rw [State.setReg_finish_reg, if_pos rfl]
  · rw [State.setReg_finish_reg, if_neg hi.symm, State.setSp_succ_reg_sp_toNat]
  · rw [State.setReg_finish_reg, if_neg hk, State.setSp_reg_of_ne _ _ hk7]
  · obtain ⟨hpc, hmem, hout, hrun, hcontrol⟩ :=
      (s.setSp (s.reg 7 + 1)).setReg_finish_frame i (s.mem.read (s.reg 7)) (m := .pop) rfl
    exact ⟨hpc, hmem, hout, hrun, (SameControl.setReg s 7 (s.reg 7 + 1)).trans hcontrol⟩

/-- Settles O29: PUSH is a push of its register's byte, taken from the state before it, and the advance. -/
theorem pushStoresToTheStack : Obligations.PushStoresToTheStack := by
  refine ⟨encodedAs_coreInstr .push, fun s i => ⟨_, exec_push s i, ?_, fun a ha => ?_, s.push_reg_sp (s.reg i),
    s.pushAddr_toNat, fun k hk => s.push_reg_of_ne (s.reg i) hk, State.finish_pc_toNat _ rfl, rfl, rfl,
    (SameControl.push s (s.reg i)).finish .push⟩, fun s a ha => raisesBadRegister_of_regOperands [] rfl ha s⟩
  · rw [State.finish_mem, State.push_mem_read, if_pos rfl]
  · rw [State.finish_mem, State.push_mem_read, if_neg ha]

end Sys2Proof.Machine

/-! ### CALL and RET (44_call_return.md, R101 and R102) -/

namespace Sys2Proof.Machine

/-- A jump writes none of the elements that `SameControl` names (R33). -/
theorem SameControl.jump (s : State) (target : Byte) : SameControl s (s.jump target) :=
  ⟨rfl, rfl, rfl, rfl, rfl, rfl⟩

/-- Where the class suppresses the operand advance, the pc of an instruction that ends with a jump is the jump's
target (R33, R83). -/
theorem State.jump_finish_pc (s : State) (target : Byte) {m : Mnemonic}
    (hsuppress : (controls m).suppressAdvance = true) : ((s.jump target).finish m).pc = target := by
  rw [State.finish_pc, if_pos hsuppress, State.jump_pc]

/-- The registers of an instruction that ends with a jump are those before the jump (R33, R83). -/
theorem State.jump_finish_reg (s : State) (target : Byte) (m : Mnemonic) (k : RegIdx) :
    ((s.jump target).finish m).reg k = s.reg k := by
  rw [State.finish_reg, State.jump_reg]

/-- The memory of an instruction that ends with a jump is the one before the jump (R33, R83). -/
theorem State.jump_finish_mem (s : State) (target : Byte) (m : Mnemonic) :
    ((s.jump target).finish m).mem = s.mem := by
  rw [State.finish_mem, State.jump_mem]

/-- Settles O30: CALL is a push of the return address and a jump, whose target is read after the push; its register
operand is the only one checked. -/
theorem callPushesTheReturnAddress : Obligations.CallPushesTheReturnAddress := by
  refine ⟨encodedAs_coreInstr .call, fun s i => ⟨_, exec_call s i, ?_, fun a ha => ?_, ?_, s.pushAddr_toNat,
    fun k hk => ?_, ?_, rfl, rfl, ?_⟩, fun s a ha => raisesBadRegister_of_regOperands [] rfl ha s⟩
  · rw [State.jump_finish_mem, State.push_mem_read, if_pos rfl, BitVec.toNat_add]
    rfl
  · rw [State.jump_finish_mem, State.push_mem_read, if_neg ha]
  · rw [State.jump_finish_reg, State.push_reg_sp]
  · rw [State.jump_finish_reg, State.push_reg_of_ne _ _ hk]
  · rw [State.jump_finish_pc _ _ rfl, State.jump_finish_reg]
  · exact ((SameControl.push s (s.pc + 2)).trans (SameControl.jump _ _)).finish .call

/-- Settles O31: RET is the pop's write of `SP` and a jump to the popped byte. -/
theorem retPopsTheProgramCounter : Obligations.RetPopsTheProgramCounter := by
  refine ⟨encodedAs_coreInstr .ret, fun s => ⟨_, exec_ret s, State.jump_finish_pc _ _ rfl, ?_, fun k hk => ?_,
    fun a => ?_, rfl, rfl, ?_⟩⟩
  · rw [State.jump_finish_reg, State.setSp_succ_reg_sp_toNat]
  · rw [State.jump_finish_reg, State.setSp_reg_of_ne _ _ hk]
  · rw [State.jump_finish_mem, State.setSp_mem]
  · exact ((SameControl.setReg s 7 (s.reg 7 + 1)).trans (SameControl.jump _ _)).finish .ret

end Sys2Proof.Machine

/-! ### Fault entry (60_exceptions.md, R105, R106, R108 and R109) -/

namespace Sys2Proof

/-- The bytes that one of the nine uses as register indices are an initial part of its two operand bytes (R65). -/
theorem regOperands_coreInstr_prefix (m : Mnemonic) (a b : Byte) : (coreInstr m a b).regOperands <+: [a, b] := by
  cases m with
  | hlt => exact List.nil_prefix
  | ret => exact List.nil_prefix
  | mul => exact List.prefix_rfl
  | add => exact List.prefix_rfl
  | _ => exact List.prefix_append [a] [b]

theorem isRegIndex_iff (v : Byte) : isRegIndex v = true ↔ v.toNat ≤ 7 := decide_eq_true_iff

/-- The operand byte that the check of one of the nine refuses is above 7, and it is `A`, or `B` after an `A` that is a
register index (R82). -/
theorem refused_operand_cases {m : Mnemonic} {a b v : Byte}
    (hv : (coreInstr m a b).regOperands.find? (fun v => !isRegIndex v) = some v) :
    7 < v.toNat ∧ (v = a ∨ v = b ∧ a.toNat ≤ 7) := by
  have hpair := (regOperands_coreInstr_prefix m a b).find?_eq_some hv
  have hbad : isRegIndex v = false := by simpa only [Bool.not_eq_true'] using List.find?_some hpair
  constructor
  · rw [← not_le, ← isRegIndex_iff, hbad]
    exact Bool.false_ne_true
  · by_cases ha : a.toNat ≤ 7
    · rw [List.find?_cons_of_neg (by simpa using (isRegIndex_iff a).2 ha)] at hpair
      exact .inr ⟨List.mem_singleton.1 (List.mem_of_find?_eq_some hpair), ha⟩
    · rw [List.find?_cons_of_pos (by simpa using mt (isRegIndex_iff a).1 ha)] at hpair
      exact .inl (Option.some.inj hpair).symm

end Sys2Proof

namespace Sys2Proof.Machine

/-- With one of the nine opcodes at the pc, the next instruction is that one (R68). -/
theorem State.nextInstr_eq_coreInstr {opc : Opc} (h : opcLegal opc = true) {s : State} {m : Mnemonic}
    (hm : opc.core m = s.mem.read s.pc) :
    s.nextInstr opc = coreInstr m (s.mem.read (s.pc + 1)) (s.mem.read (s.pc + 2)) := by
  rw [State.nextInstr, ← hm, decode_core h]

/-- A pending fault is IllegalInstruction of a byte that is none of the nine opcodes, or BadRegister of the operand that
the check of one of the nine refuses (R105, R106, R108). -/
theorem pendingFault_cases {opc : Opc} (h : opcLegal opc = true) {s : State} {r : FaultRecord}
    (hr : s.pendingFault opc = some r) :
    ((∀ m, opc.core m ≠ s.mem.read s.pc) ∧ r = ⟨causeIllegalInstruction, s.pc, s.mem.read s.pc, 0⟩) ∨
    ∃ m v, opc.core m = s.mem.read s.pc ∧
      (coreInstr m (s.mem.read (s.pc + 1)) (s.mem.read (s.pc + 2))).regOperands.find? (fun v => !isRegIndex v) =
        some v ∧
      r = ⟨causeBadRegister, s.pc, s.mem.read s.pc, v⟩ := by
  by_cases hcore : ∃ m, opc.core m = s.mem.read s.pc
  · obtain ⟨m, hm⟩ := hcore
    have hi : (s.nextInstr opc).isCore = true := (isCore_decode_iff opc _ _ _).2 ⟨m, hm⟩
    rw [State.pendingFault, if_pos hi, Option.map_eq_some_iff, State.nextInstr_eq_coreInstr h hm] at hr
    obtain ⟨v, hv, rfl⟩ := hr
    exact .inr ⟨m, v, hm, hv, rfl⟩
  · have hne : ∀ m, opc.core m ≠ s.mem.read s.pc := not_exists.1 hcore
    rw [pendingFault_illegal (isCore_decode_of_core_ne hne _ _)] at hr
    exact .inl ⟨hne, (Option.some.inj hr).symm⟩

/-- Fault entry after the fetch writes the latches, `run` and `FR` alone (R109). -/
theorem SameBesidesFault.fetch_faulted (s : State) (r : FaultRecord) :
    SameBesidesFault s { s.fetch with run := .faulted, fr := some r } :=
  ⟨fun _ => rfl, rfl, fun _ => rfl, rfl, rfl, rfl⟩

/-- Settles O32: none of the twelve rows is one of the nine instructions, and what is none of them enters
IllegalInstruction. -/
theorem illegalBytesRaiseIllegalInstruction : Obligations.IllegalBytesRaiseIllegalInstruction := by
  intro i s hrow
  have hi : i.isCore = false := by
    rcases hrow with rfl | rfl | rfl | rfl | rfl | rfl | rfl | rfl | rfl | rfl | rfl | ⟨ir, rfl⟩ <;> rfl
  exact ⟨hi, _, exec_illegal hi s, rfl, rfl, .raise s _ 0, rfl, rfl, rfl⟩

/-- Settles O34: the record by the two kinds of pending fault, and the step by whether one is pending. -/
theorem faultingStepIsPrecise : Obligations.FaultingStepIsPrecise := by
  intro opc s h hrun
  rcases stepWith_pendingFault h hrun with ⟨r, hr, hstep⟩ | ⟨hnone, t, hstep, -, hsafe, hfr⟩
  · refine ⟨fun r' hr' => ?_, fun hnone => absurd (hr.symm.trans hnone) (Option.some_ne_none r)⟩
    obtain rfl := Option.some.inj (hr.symm.trans hr')
    rcases pendingFault_cases h hr with ⟨hne, rfl⟩ | ⟨m, v, hm, hv, rfl⟩
    · exact ⟨rfl, rfl, .inl ⟨rfl, rfl, hne⟩, _, hstep, rfl, rfl, .fetch_faulted s _⟩
    · obtain ⟨hbad, hwhich⟩ := refused_operand_cases hv
      exact ⟨rfl, rfl, .inr ⟨rfl, hbad, ⟨m, hm⟩, hwhich⟩, _, hstep, rfl, rfl, .fetch_faulted s _⟩
  · exact ⟨fun r hr => absurd (hr.symm.trans hnone) (Option.some_ne_none r), fun _ => ⟨t, hstep, hsafe, hfr⟩⟩

end Sys2Proof.Machine

/-! ## Reset, load and boot (70_reset_and_hazards.md, R120 to R125) -/

namespace Sys2Proof.Machine

/-! ### The bytes of a stored image -/

/-- One address on, and then `n`, is `n + 1` on. -/
theorem succ_add_ofNat (a : Byte) (n : Nat) : a + 1 + BitVec.ofNat 8 n = a + BitVec.ofNat 8 (n + 1) := by
  rw [Nat.add_comm n, BitVec.ofNat_add, BitVec.add_assoc]
  rfl

/-- The last byte of a store is written after all the others, at its own index from the start address. -/
theorem storeBytes_concat (m : Memory) (a : Byte) (bytes : List Byte) (v : Byte) :
    storeBytes m a (bytes ++ [v]) = (storeBytes m a bytes).write (a + BitVec.ofNat 8 bytes.length) v := by
  induction bytes generalizing m a with
  | nil => simp [storeBytes]
  | cons w rest ih => rw [List.cons_append, storeBytes, storeBytes, ih, succ_add_ofNat, List.length_cons]

/-- A byte stored last from address 0 is the one read at its index modulo 256 (R57, R122). -/
theorem read_storeBytes_concat (m : Memory) (bytes : List Byte) (v a : Byte) :
    (storeBytes m 0 (bytes ++ [v])).read a =
      if bytes.length % 256 = a.toNat then v else (storeBytes m 0 bytes).read a := by
  have haddr : a = 0 + BitVec.ofNat 8 bytes.length ↔ bytes.length % 256 = a.toNat := by
    rw [← BitVec.toNat_inj, zero_add, BitVec.toNat_ofNat, eq_comm]
  rw [storeBytes_concat, Memory.read_write]
  exact if_congr haddr rfl rfl

/-- At a covered address the byte with the greatest index is read: each byte stored replaces the ones before it
(R122). -/
theorem read_storeBytes_last (m : Memory) (bytes : List Byte) {a : Byte} {j : Nat} (h : j < bytes.length)
    (hj : j % 256 = a.toNat) (hlast : ∀ k, j < k → k < bytes.length → k % 256 ≠ a.toNat) :
    (storeBytes m 0 bytes).read a = bytes[j] := by
  induction bytes using List.reverseRecOn with
  | nil => exact absurd h (Nat.not_lt_zero j)
  | append_singleton rest v ih =>
    have hlen : (rest ++ [v]).length = rest.length + 1 := List.length_append
    rw [read_storeBytes_concat]
    rcases Nat.lt_succ_iff_lt_or_eq.1 (hlen ▸ h) with hlt | rfl
    · rw [if_neg (hlast rest.length hlt (by omega)), List.getElem_append_left hlt]
      exact ih hlt fun k hjk hk => hlast k hjk (by omega)
    · rw [if_pos hj, List.getElem_concat_length rfl]

/-- An address that no index reaches modulo 256 keeps its byte. -/
theorem read_storeBytes_uncovered (m : Memory) (bytes : List Byte) {a : Byte}
    (h : ∀ j, j < bytes.length → j % 256 ≠ a.toNat) : (storeBytes m 0 bytes).read a = m.read a := by
  induction bytes using List.reverseRecOn with
  | nil => rfl
  | append_singleton rest v ih =>
    have hlen : (rest ++ [v]).length = rest.length + 1 := List.length_append
    rw [read_storeBytes_concat, if_neg (h rest.length (by omega))]
    exact ih fun j hj => h j (by omega)

/-! ### What the host's actions answer -/

/-- Load and Release answer a next state only in `in_reset` (R30). -/
theorem run_eq_inReset_of_hostAct {a : HostAction} {s t : State} (ha : a ≠ .reset) (h : hostAct a s = .next t) :
    s.run = .inReset := by
  rcases hostAct_next h with ⟨rfl, -⟩ | ⟨v, -, hrun, -⟩ | ⟨-, hrun, -⟩
  · exact absurd rfl ha
  · exact hrun
  · exact hrun

theorem hostRelease_inReset {s : State} (h : s.run = .inReset) : hostRelease s = .next { s with run := .running } :=
  if_pos h

/-- The loads of an image store its bytes from `LA`, move `LA` past them and write nothing else (R121). -/
theorem loadImage_inReset {s : State} (h : s.run = .inReset) (image : List Byte) :
    loadImage image s =
      .next { s with mem := storeBytes s.mem s.la image, la := s.la + BitVec.ofNat 8 image.length } := by
  induction image generalizing s with
  | nil => simp [loadImage, storeBytes]
  | cons v rest ih =>
    rw [loadImage, hostLoad_inReset h, andThen_of_next, ih (s := s.loadByte v) h, State.loadByte_la, succ_add_ofNat]
    rfl

/-- The boot order ends in the reset values with the image stored from address 0, `LA` past it, and the run started,
whatever the state before (R123, R125). -/
theorem boot_next (image : List Byte) (s : State) :
    boot image s = .next { State.reset with
      mem := storeBytes [] 0 image, la := 0 + BitVec.ofNat 8 image.length, run := .running } := by
  rw [boot, hostReset, andThen_of_next, loadImage_inReset rfl, andThen_of_next, hostRelease_inReset rfl]
  rfl

/-- The registers after reset (R37, R38). -/
theorem State.reset_reg (i : RegIdx) : State.reset.reg i = if i = 7 then 0xF4 else 0 := by
  revert i
  decide

theorem State.reset_holdsResetValues : HoldsResetValues State.reset where
  low i hi := by rw [State.reset_reg, if_neg hi]
  sp := State.reset_reg 7
  pc := rfl
  fl := rfl
  mem := Memory.read_nil
  run := rfl
  out := rfl
  fr := rfl
  la := rfl

/-- The byte 0, which memory holds after reset, is no opcode of the default table (R72). -/
theorem defaultCore_ne_zero (m : Mnemonic) : defaultOpc.core m ≠ 0 := by cases m <;> decide

/-! ### The obligations -/

/-- Settles O1: Reset answers `State.reset`, which holds the reset values. -/
theorem resetInAnyStateLeavesResetValues : Obligations.ResetInAnyStateLeavesResetValues :=
  fun _ _ => ⟨State.reset, rfl, rfl, State.reset_holdsResetValues⟩

/-- Settles O2: the state after is `loadByte`'s in `in_reset`, and a Load that answers a state was in `in_reset`. -/
theorem loadWritesTheNextCell : Obligations.LoadWritesTheNextCell := by
  intro s v
  constructor
  · intro hrun
    have hmem (a : Byte) : (s.loadByte v).mem.read a = if a = s.la then v else s.mem.read a := by
      rw [State.loadByte_mem, Memory.read_write]
    have hla : (s.loadByte v).la.toNat = (s.la.toNat + 1) % 256 := BitVec.toNat_add s.la 1
    exact ⟨_, hostLoad_inReset hrun v, hmem, hla, State.loadByte_reg s v, rfl, rfl, hrun, rfl, rfl, ⟨rfl, rfl, rfl⟩⟩
  · intro hrun t ht
    exact hrun (run_eq_inReset_of_hostAct (by simp) ht)

/-- Settles O3: the loaded memory is the image stored from address 0 on the empty memory, where a covered address holds
the last byte stored and any other still reads 0. -/
theorem loadedImageLastByteWins : Obligations.LoadedImageLastByteWins := by
  intro image
  have hla : (0 + BitVec.ofNat 8 image.length).toNat = image.length % 256 := by
    rw [zero_add, BitVec.toNat_ofNat]
  exact ⟨_, loadImage_inReset rfl image, hla, fun _ _ => read_storeBytes_last [] image,
    fun _ => read_storeBytes_uncovered [] image⟩

/-- Settles O4: the boot order's last state differs from the loaded one in `run` alone, and the loaded one from the
reset values in memory and `LA` alone. -/
theorem bootReachesTheLaunchState : Obligations.BootReachesTheLaunchState := by
  constructor
  · intro s hrun t ht
    exact hrun (run_eq_inReset_of_hostAct (by simp) ht)
  · intro image s
    exact ⟨_, _, loadImage_inReset rfl image, boot_next image s, rfl, rfl, rfl, fun _ => rfl, State.reset_reg, rfl,
      rfl, rfl⟩

/-- Settles O5: every byte of an empty image's memory is 0, which the default table gives to no instruction. -/
theorem emptyImageFaultsAtAddressZero : Obligations.EmptyImageFaultsAtAddressZero := by
  intro s
  exact ⟨_, _, boot_next [] s,
    stepWith_illegalInstr defaultOpc_legal rfl (isCore_decode_of_core_ne defaultCore_ne_zero _ _), rfl, rfl⟩

end Sys2Proof.Machine

/-! ## Encoding and decoding (30_encoding.md, R63, R68 and R72) -/

namespace Sys2Proof

/-- The opcode byte of one of the nine is its table entry (R69). -/
theorem opcodeByte_of_core (opc : Opc) {i : Instr} {m : Mnemonic} (h : i.opClass = .core m) :
    opcodeByte opc i = opc.core m := by
  cases i <;> cases h <;> rfl

/-- The opcode byte of a reserved row is its table entry (R71). -/
theorem opcodeByte_of_reserved (opc : Opc) {i : Instr} {r : ReservedMnemonic} (h : i.opClass = .reserved r) :
    opcodeByte opc i = opc.reserved r := by
  cases i <;> cases h <;> rfl

/-- An instruction of the class `other` is a byte of its own, which is encodable where no table names it (R68). -/
theorem eq_anyOther_of_opClass {i : Instr} (h : i.opClass = .other) : ∃ ir, i = .anyOther ir := by
  cases i <;> cases h
  exact ⟨_, rfl⟩

/-- A row of the tables is always encodable. -/
theorem encodable_of_opClass_ne_other (opc : Opc) {i : Instr} (h : i.opClass ≠ .other) : i.encodable opc = true := by
  cases i with
  | anyOther ir => exact absurd rfl h
  | _ => rfl

/-- A byte of its own is encodable exactly when it decodes as such (R68). -/
theorem encodable_anyOther_iff (opc : Opc) (ir : Byte) :
    (Instr.anyOther ir).encodable opc = true ↔ decodeClass opc ir = .other := by
  rw [decodeClass_other_iff, Instr.encodable, Bool.and_eq_true, Bool.not_eq_true', Bool.not_eq_true']

/-- The opcode byte of an encodable instruction has its class (R68, R71). -/
theorem decodeClass_opcodeByte {opc : Opc} (h : opcLegal opc = true) {i : Instr}
    (hd : i.isCore = true ∨ reservedDistinct opc = true) (he : i.encodable opc = true) :
    decodeClass opc (opcodeByte opc i) = i.opClass := by
  cases hc : i.opClass with
  | core m => rw [opcodeByte_of_core opc hc, decodeClass_core h]
  | reserved r =>
    have hnot : ¬ i.isCore = true := by simp [Instr.isCore, hc]
    rw [opcodeByte_of_reserved opc hc, decodeClass_reserved h (hd.resolve_left hnot)]
  | other =>
    obtain ⟨ir, rfl⟩ := eq_anyOther_of_opClass hc
    exact (encodable_anyOther_iff opc ir).1 he

/-- The class, the opcode byte and the operand bytes make up the instruction (R63, R65). -/
theorem classInstr_opClass (opc : Opc) (i : Instr) (rest : List Byte) :
    classInstr i.opClass (opcodeByte opc i) ((i.operands ++ rest).getD 0 0) ((i.operands ++ rest).getD 1 0) = i := by
  cases i <;> rfl

/-- The decoder takes from the latched operand bytes an initial part (R65). -/
theorem operands_decode_prefix (opc : Opc) (ir a b : Byte) : (decode opc ir a b).operands <+: [a, b] := by
  unfold decode
  cases decodeClass opc ir with
  | core m =>
    cases m with
    | hlt => exact List.nil_prefix
    | ret => exact List.nil_prefix
    | ldi => exact List.prefix_rfl
    | mul => exact List.prefix_rfl
    | add => exact List.prefix_rfl
    | _ => exact List.prefix_append [a] [b]
  | reserved r => cases r <;> exact List.nil_prefix
  | other => exact List.nil_prefix

/-- The decoded instruction is written with the opcode byte it was read from (R63, R68). -/
theorem opcodeByte_decode (opc : Opc) (ir a b : Byte) : opcodeByte opc (decode opc ir a b) = ir := by
  have hclass := opClass_decode opc ir a b
  cases hc : decodeClass opc ir with
  | core m => rw [opcodeByte_of_core opc (hclass.trans hc), core_of_decodeClass hc]
  | reserved r => rw [opcodeByte_of_reserved opc (hclass.trans hc), reserved_of_decodeClass hc]
  | other => rw [decode, hc]; rfl

/-- Every decoded instruction is encodable: a byte it names by itself is in no table (R68). -/
theorem encodable_decode (opc : Opc) (ir a b : Byte) : (decode opc ir a b).encodable opc = true := by
  by_cases hc : decodeClass opc ir = .other
  · rw [decode, hc]
    exact (encodable_anyOther_iff opc ir).2 hc
  · exact encodable_of_opClass_ne_other opc (by rwa [opClass_decode])

/-- A byte is no opcode of the table exactly when it decodes as ILLEGAL (R68). -/
theorem isCore_decode_eq_false_iff (opc : Opc) (ir a b : Byte) :
    (decode opc ir a b).isCore = false ↔ ir ∉ Mnemonic.all.map opc.core := by
  rw [Bool.eq_false_iff, ne_eq, isCore_decode_iff]
  simp only [List.mem_map, Mnemonic.mem_all, true_and]

/-- Settles O7: the opcode byte has the instruction's class, and with the operand bytes the class makes up the
instruction. -/
theorem decodeOfEncodeIsTheInstruction : Obligations.DecodeOfEncodeIsTheInstruction := by
  intro opc i rest h hd he
  have hlen : ¬ (i.operands ++ rest).length < i.operands.length := by
    rw [List.length_append]
    omega
  simp only [decodeBytes, if_pos h, encode, List.cons_append, decode, decodeClass_opcodeByte h hd he,
    classInstr_opClass, if_neg hlen]

/-- Settles O8: the opcode byte is the byte read, and the operand bytes are an initial part of those read. -/
theorem encodeOfDecodeIsTheFetchedBytes : Obligations.EncodeOfDecodeIsTheFetchedBytes := by
  refine fun opc ir a b => ⟨?_, encodable_decode opc ir a b⟩
  rw [encode, opcodeByte_decode, Instr.size, List.take_succ_cons,
    ← List.prefix_iff_eq_take.1 (operands_decode_prefix opc ir a b)]

/-- Settles O9: each of these byte lists is one evaluation of the decoder. -/
theorem defaultTableWordsDecode : Obligations.DefaultTableWordsDecode :=
  ⟨rfl, rfl, rfl, rfl, rfl, rfl, rfl, rfl, rfl, rfl, rfl, rfl, rfl, rfl, rfl, rfl, rfl, rfl, rfl, rfl, rfl⟩

/-- Settles O10: the nine bytes are the opcodes of the default table in another order. -/
theorem defaultTableIllegalBytes : Obligations.DefaultTableIllegalBytes := by
  refine ⟨defaultOpc_legal, _, rfl, by decide, fun ir a b => ?_⟩
  have hperm : (Mnemonic.all.map defaultOpc.core).Perm [0x01, 0x11, 0x45, 0x46, 0x47, 0x50, 0x82, 0xA0, 0xA2] := by
    decide
  rw [isCore_decode_eq_false_iff, hperm.mem_iff]

end Sys2Proof

/-! ## The canonical memory (20_memory.md section 1, R23) -/

namespace Sys2Proof.Machine

/-- The cells of a canonical memory are the addresses that read as something other than 0, each with that byte. -/
theorem Memory.mem_iff_read {m : Memory} (h : Memory.wf m) (c : Host.Cell) :
    c ∈ m ↔ ∃ a : Byte, m.read a ≠ 0 ∧ c = (a.toNat, m.read a) := by
  obtain ⟨hrise, hcell⟩ := h
  constructor
  · intro hc
    obtain ⟨hlt, hne⟩ := hcell c hc
    have haddr : (BitVec.ofNat 8 c.1).toNat = c.1 := by
      rw [BitVec.toNat_ofNat]
      exact Nat.mod_eq_of_lt hlt
    have hread : m.read (BitVec.ofNat 8 c.1) = c.2 := by rw [Memory.read, haddr, cellAt_of_mem hrise hc]
    exact ⟨BitVec.ofNat 8 c.1, hread ▸ hne, by rw [haddr, hread]⟩
  · rintro ⟨a, hne, rfl⟩
    exact mem_of_cellAt hne

/-- Settles O47: both lists hold the cells their reads give, in rising order. -/
theorem memoriesThatReadAlikeAreEqual : Obligations.MemoriesThatReadAlikeAreEqual := by
  intro m n hm hn hread
  have hmem (c : Host.Cell) : c ∈ m ↔ c ∈ n := by
    simp only [Memory.mem_iff_read hm, Memory.mem_iff_read hn, hread]
  have hnodup {l : Memory} (h : Memory.wf l) : l.Nodup :=
    h.1.imp fun hlt heq => absurd (congrArg Prod.fst heq) (Nat.ne_of_lt hlt)
  refine ((List.perm_ext_iff_of_nodup (hnodup hm) (hnodup hn)).2 hmem).eq_of_pairwise (fun c d _ _ hcd hdc => ?_)
    hm.1 hn.1
  exact absurd hdc (Nat.lt_asymm hcd)

end Sys2Proof.Machine

/-! ## What every instruction keeps (10_state.md, 20_memory.md) -/

namespace Sys2Proof.Machine

/-- PUSH and CALL alone write memory, one byte at `pushAddr` (R46). -/
theorem Ran.mem_cases {i : Instr} {s t : State} (h : Ran i s t) :
    t.mem = s.mem ∨
    ∃ k v, (i = .push (regByte k) ∨ i = .call (regByte k)) ∧ t.mem = s.mem.write s.pushAddr v := by
  cases h with
  | push _ k => exact .inr ⟨k, s.reg k, .inl rfl, rfl⟩
  | call _ k => exact .inr ⟨k, s.pc + 2, .inr rfl, rfl⟩
  | _ => exact .inl rfl

/-- Every instruction keeps the canonical form of the memory. -/
theorem Ran.mem_wf {i : Instr} {s t : State} (h : Ran i s t) (hwf : Memory.wf s.mem) : Memory.wf t.mem := by
  rcases h.mem_cases with heq | ⟨k, v, -, heq⟩ <;> rw [heq]
  · exact hwf
  · exact Memory.write_wf hwf _ _

/-- An instruction leaves the run state, halts, or enters a fault (R22). -/
theorem Ran.run_cases {i : Instr} {s t : State} (h : Ran i s t) :
    t.run = s.run ∨ t.run = .halted ∨ t.run = .faulted := by
  cases h with
  | hlt => exact .inr (.inl rfl)
  | illegal => exact .inr (.inr rfl)
  | badRegister => exact .inr (.inr rfl)
  | _ => exact .inl rfl

/-- An instruction that ends after a register write keeps the stack pointer, unless it wrote register 7 (R16). -/
theorem State.setReg_finish_sp (s : State) (k : RegIdx) (v : Byte) (m : Mnemonic) :
    k = 7 ∨ ((s.setReg k v).finish m).reg 7 = s.reg 7 := by
  refine (eq_or_ne k 7).imp_right fun hk => ?_
  rw [State.setReg_finish_reg, if_neg hk.symm]

/-- The stack pointer changes only under the four stack instructions, or where the first operand names it (R16). -/
theorem Ran.sp_cases {i : Instr} {s t : State} (h : Ran i s t) :
    t.reg 7 = s.reg 7 ∨
    (∃ k, i = .push (regByte k) ∨ i = .call (regByte k) ∨ i = .pop (regByte k)) ∨ i = .ret ∨
    (∃ x, i = .ldi (regByte 7) x ∨ i = .mul (regByte 7) x ∨ i = .add (regByte 7) x) := by
  cases h with
  | ldi _ k imm =>
    rcases s.setReg_finish_sp k imm .ldi with rfl | hsp
    · exact .inr (.inr (.inr ⟨imm, .inl rfl⟩))
    · exact .inl hsp
  | mul _ k j =>
    rcases s.setReg_finish_sp k (s.reg k * s.reg j) .mul with rfl | hsp
    · exact .inr (.inr (.inr ⟨regByte j, .inr (.inl rfl)⟩))
    · exact .inl hsp
  | add _ k j =>
    rcases s.setReg_finish_sp k (s.reg k + s.reg j) .add with rfl | hsp
    · exact .inr (.inr (.inr ⟨regByte j, .inr (.inr rfl)⟩))
    · exact .inl hsp
  | push _ k => exact .inr (.inl ⟨k, .inl rfl⟩)
  | call _ k => exact .inr (.inl ⟨k, .inr (.inl rfl)⟩)
  | pop _ k => exact .inr (.inl ⟨k, .inr (.inr rfl)⟩)
  | ret => exact .inr (.inr (.inl rfl))
  | _ => exact .inl rfl

/-- Settles O39: what differs from the memory before was written at `pushAddr`. -/
theorem onlyPushAndCallWriteMemory : Obligations.OnlyPushAndCallWriteMemory := by
  intro i s t a h hne
  rcases (ran_of_exec h).mem_cases with heq | ⟨k, v, hi, heq⟩
  · exact absurd (congrArg (Memory.read · a) heq) hne
  · rw [heq, Memory.read_write] at hne
    exact ⟨by_contra fun ha => hne (if_neg ha), k, hi⟩

/-- Settles O40: over the outcomes of an instruction. -/
theorem stackPointerChangesOnlyByStackOrName : Obligations.StackPointerChangesOnlyByStackOrName :=
  fun _ _ _ h hne => (ran_of_exec h).sp_cases.resolve_left hne

end Sys2Proof.Machine

/-! ## The steps of a running and of a stopped CORE (40_cycle.md) -/

namespace Sys2Proof.Machine

/-- A step that answers from a stopped CORE changes nothing (R77). -/
theorem eq_of_stepWith_stopped {opc : Opc} {s t : State} (hr : s.run ≠ .running) (h : stepWith opc s = .next t) :
    t = s := by
  rcases stepWith_next h with ⟨-, ⟨-, heq⟩ | ⟨hrun, -⟩⟩
  · exact heq
  · exact absurd hrun hr

/-- Settles O17: the model's answer outside `running`. -/
theorem stoppedCoreStepChangesNothing : Obligations.StoppedCoreStepChangesNothing :=
  fun _ _ h hr => stepWith_stopped h hr

/-- Settles O18: under a legal table every step is answered. -/
theorem runningStepAlwaysAnswersNext : Obligations.RunningStepAlwaysAnswersNext :=
  fun _ s h _ => stepWith_completes h s

/-- The step of a running CORE depends on the fetched state alone, since the next instruction is in its latches. -/
theorem stepWith_congr_fetch {opc : Opc} (h : opcLegal opc = true) {s t : State} (hs : s.run = .running)
    (hf : t.fetch = s.fetch) : stepWith opc t = stepWith opc s := by
  have ht : t.run = .running := by rw [← State.fetch_run, hf, State.fetch_run, hs]
  rw [stepWith_running h hs, stepWith_running h ht, ← nextInstr_eq, ← nextInstr_eq, hf]

/-- Settles O20: the fetch overwrites all three latches. -/
theorem earlierLatchValuesDoNotMatter : Obligations.EarlierLatchValuesDoNotMatter := by
  intro opc s x y z h hr
  obtain ⟨t, ht⟩ := stepWith_completes h s
  have hfetch : State.fetch { s with ir := x, opA := y, opB := z } = s.fetch := rfl
  exact ⟨t, ht, (stepWith_congr_fetch h hr hfetch).trans ht⟩

/-- Settles O41: over the three outcomes of the cycle, of which only the case line of HLT halts. -/
theorem onlyHltHalts : Obligations.OnlyHltHalts := by
  intro opc s t h hr ht
  obtain ⟨u, hu, hc⟩ := stepWith_cycle h hr
  cases hu.symm.trans ht
  cases hc with
  | illegal hne => exact iff_of_false (by simp) (hne .hlt).symm
  | badRegister m v hm hv =>
    refine iff_of_false (by simp) fun hhlt => ?_
    obtain rfl := core_inj h (hm.trans hhlt)
    cases hv
  | effect m hm hgood =>
    have hopc : s.mem.read s.pc = opc.core .hlt ↔ m = .hlt :=
      ⟨fun hhlt => core_inj h (hm.trans hhlt), fun heq => hm ▸ congrArg opc.core heq⟩
    rw [hopc, State.finish_run, referenceEffect_run, State.fetch_run, hr]
    simp

end Sys2Proof.Machine

/-! ## Host actions out of place and ended runs (10_state.md, R22 and R30; 60_exceptions.md, R119) -/

namespace Sys2Proof.Machine

theorem State.inspect_running {s : State} (h : s.run = .running) (p : Probe) :
    s.inspect p = .error .inspectWhileRunning :=
  if_pos h

theorem State.inspect_stopped {s : State} (h : s.run ≠ .running) (p : Probe) : s.inspect p = .ok (s.probe p) :=
  if_neg h

/-- The load port ignores `load_valid` outside `in_reset` (R29). -/
theorem loadPort_of_run_ne_inReset {s : State} (h : s.run ≠ .inReset) (valid : Bool) (v : Byte) :
    loadPort valid v s = s := by
  simp only [loadPort, h, decide_false, Bool.and_false, Bool.false_eq_true, if_false]

/-- Settles O6: each host action by whether its run state allows it. -/
theorem hostActionsOutOfPlaceAreRefused : Obligations.HostActionsOutOfPlaceAreRefused := by
  refine fun s v => ⟨fun hreset => ?_, State.inspect_running, fun hstopped => ?_⟩
  · exact ⟨if_neg hreset, if_neg hreset, loadPort_of_run_ne_inReset hreset true v⟩
  · have hread := State.inspect_stopped hstopped
    exact ⟨fun i => hread (.reg i), hread .pc, hread .fl, fun a => hread (.mem a), hread .run, hread .fr, hread .la⟩

/-- One event from an ended run: Reset, or a step that changes nothing (R22, R77). -/
theorem event_ended {opc : Opc} {e : Event} {s t : State} (hend : s.run = .halted ∨ s.run = .faulted)
    (h : event opc e s = .next t) : (e = .host .reset ∧ t = State.reset) ∨ (e = .instruction ∧ t = s) := by
  have hrunning : s.run ≠ .running := by rcases hend with h | h <;> simp [h]
  have hreset : s.run ≠ .inReset := by rcases hend with h | h <;> simp [h]
  cases e with
  | instruction => exact .inr ⟨rfl, eq_of_stepWith_stopped hrunning h⟩
  | host a =>
    by_cases ha : a = .reset
    · subst ha
      cases h
      exact .inl ⟨rfl, rfl⟩
    · exact absurd (run_eq_inReset_of_hostAct ha h) hreset

/-- Settles O42: one event from an ended run. -/
theorem finalStatesAreLeftOnlyByReset : Obligations.FinalStatesAreLeftOnlyByReset :=
  fun _ _ _ _ hend h => event_ended hend h

/-- Settles O43, by induction on the events: without Reset each of them is a step that changes nothing. -/
theorem endedRunKeepsItsState : Obligations.EndedRunKeepsItsState := by
  intro opc s t es hend hno h
  induction es with
  | nil => cases h; rfl
  | cons e rest ih =>
    obtain ⟨hne, hno⟩ := not_or.1 (List.mem_cons.not.1 hno)
    obtain ⟨u, hu, hrest⟩ := andThen_next h
    rcases event_ended hend hu with ⟨rfl, -⟩ | ⟨-, rfl⟩
    · exact absurd rfl hne
    · exact ih hno hrest

end Sys2Proof.Machine

/-! ## The invariant (10_state.md sections 4, 5, 8 and 10; 60_exceptions.md section 2) -/

namespace Sys2Proof.Machine

/-- Settles O48: the reset state is canonical and not `faulted`. -/
theorem invariantHoldsAtReset : Obligations.InvariantHoldsAtReset := fun _ =>
  { mem := Memory.wf_nil
    fl := rfl
    faulted := nofun
    noFault := fun _ => rfl
    inReset := fun _ => ⟨rfl, rfl, rfl⟩ }

/-- Fault entry after the fetch, with the fault that is pending at the pc, keeps the invariant (R109). -/
theorem Inv.fetch_faulted {opc : Opc} {s : State} (h : Inv opc s) {r : FaultRecord}
    (hr : s.pendingFault opc = some r) : Inv opc { s.fetch with run := .faulted, fr := some r } where
  mem := h.mem
  fl := h.fl
  faulted _ := ⟨rfl, hr.symm⟩
  noFault hne := absurd rfl hne
  inReset := nofun

/-- An instruction of a running CORE that enters no fault keeps the invariant (R25). -/
theorem Inv.ran {opc : Opc} {i : Instr} {s t : State} (h : Inv opc s) (hr : s.run = .running)
    (hran : Ran i s.fetch t) (hsafe : t.run ≠ .faulted) (hfr : t.fr = s.fr) : Inv opc t where
  mem := hran.mem_wf h.mem
  fl := hran.fl.trans h.fl
  faulted hf := absurd hf hsafe
  noFault _ := hfr.trans (h.noFault (by simp [hr]))
  inReset hreset := by
    rcases hran.run_cases with hrun | hrun | hrun <;> simp [hrun, hr] at hreset

/-- Every step keeps the invariant: a stopped CORE's changes nothing, and a running CORE's enters the pending fault or
runs an instruction that enters none. -/
theorem Inv.stepWith {opc : Opc} {s t : State} (h : Inv opc s) (ht : stepWith opc s = .next t) : Inv opc t := by
  obtain ⟨hlegal, ⟨-, rfl⟩ | ⟨hr, -⟩⟩ := stepWith_next ht
  · exact h
  · rcases stepWith_pendingFault hlegal hr with ⟨r, hpending, hstep⟩ | ⟨-, u, hstep, hran, hsafe, hfr⟩
    · cases hstep.symm.trans ht
      exact h.fetch_faulted hpending
    · cases hstep.symm.trans ht
      exact h.ran hr hran hsafe hfr

/-- One transfer on the load path keeps the invariant in `in_reset` (R30, R121). -/
theorem Inv.loadByte {opc : Opc} {s : State} (h : Inv opc s) (hr : s.run = .inReset) (v : Byte) :
    Inv opc (s.loadByte v) where
  mem := Memory.write_wf h.mem _ _
  fl := h.fl
  faulted hf := absurd (hr.symm.trans hf) nofun
  noFault := h.noFault
  inReset := h.inReset

/-- Release keeps the invariant (R30). -/
theorem Inv.release {opc : Opc} {s : State} (h : Inv opc s) (hr : s.run = .inReset) :
    Inv opc { s with run := .running } where
  mem := h.mem
  fl := h.fl
  faulted := nofun
  noFault _ := h.noFault (by simp [hr])
  inReset := nofun

/-- Every event keeps the invariant. -/
theorem Inv.event {opc : Opc} {e : Event} {s t : State} (h : Inv opc s) (ht : event opc e s = .next t) :
    Inv opc t := by
  cases e with
  | instruction => exact h.stepWith ht
  | host a =>
    rcases hostAct_next ht with ⟨-, rfl⟩ | ⟨v, -, hr, rfl⟩ | ⟨-, hr, rfl⟩
    · exact invariantHoldsAtReset opc
    · exact h.loadByte hr v
    · exact h.release hr

/-- Settles O49: `step` is the step under the default table. -/
theorem stepKeepsInvariant : Obligations.StepKeepsInvariant :=
  ⟨fun _ _ h ht => h.stepWith ht, fun _ _ _ h ht => h.stepWith ht⟩

/-- Settles O50, by induction on the events. -/
theorem everyRunWithItsHostKeepsInvariant : Obligations.EveryRunWithItsHostKeepsInvariant := by
  intro opc es s t h ht
  induction es generalizing s with
  | nil => cases ht; exact h
  | cons e rest ih =>
    obtain ⟨u, hu, hrest⟩ := andThen_next ht
    exact ih u (h.event hu) hrest

end Sys2Proof.Machine

/-! ## What a step reads and writes (20_memory.md, R46 and R55) -/

namespace Sys2Proof.Machine

/-- An instruction without a memory operation makes no data access (R32, R55). -/
theorem dataAccess_of_memOp_none {i : Instr} (h : memOp i = .none) (s : State) : dataAccess i s = [] := by
  simp only [dataAccess, h, ite_self]

/-- An instruction whose operand check refuses a byte makes no data access (R82). -/
theorem dataAccess_of_refused {i : Instr} {v : Byte} (h : i.regOperands.find? (fun v => !isRegIndex v) = some v)
    (s : State) : dataAccess i s = [] := by
  refine if_neg fun hall => ?_
  have hgood := List.all_eq_true.1 hall v (List.mem_of_find?_eq_some h)
  simpa [hgood] using List.find?_some h

theorem all_isRegIndex_regByte (k : RegIdx) : [regByte k].all isRegIndex = true := by simp

/-- POP reads at the stack pointer (R99). -/
theorem dataAccess_pop (k : RegIdx) (s : State) : dataAccess (.pop (regByte k)) s = [.read (s.reg 7)] :=
  if_pos (all_isRegIndex_regByte k)

/-- PUSH writes at `pushAddr` (R100). -/
theorem dataAccess_push (k : RegIdx) (s : State) : dataAccess (.push (regByte k)) s = [.write s.pushAddr] :=
  if_pos (all_isRegIndex_regByte k)

/-- CALL writes at `pushAddr` (R101). -/
theorem dataAccess_call (k : RegIdx) (s : State) : dataAccess (.call (regByte k)) s = [.write s.pushAddr] :=
  if_pos (all_isRegIndex_regByte k)

/-- RET reads at the stack pointer (R102). -/
theorem dataAccess_ret (s : State) : dataAccess .ret s = [.read (s.reg 7)] := rfl

/-- The memories `m'` and `n'` come from `m` and `n` by what the accesses `acc` write: nothing, or the same byte at the
one address they name (R46). -/
inductive SameWrite (acc : List Access) (m n : Memory) : Memory → Memory → Prop
  | nothing (h : ∀ a, Access.write a ∉ acc) : SameWrite acc m n m n
  | write (a v : Byte) (h : acc = [.write a]) : SameWrite acc m n (m.write a v) (n.write a v)

theorem SameWrite.of_nil {acc : List Access} (h : acc = []) (m n : Memory) : SameWrite acc m n m n :=
  .nothing (by simp [h])

theorem SameWrite.of_read {acc : List Access} {a : Byte} (h : acc = [.read a]) (m n : Memory) :
    SameWrite acc m n m n :=
  .nothing (by simp [h])

/-- Both memories read the same where something was written. -/
theorem SameWrite.read_of_mem {acc : List Access} {m n m' n' : Memory} (h : SameWrite acc m n m' n') {a : Byte}
    (ha : Access.write a ∈ acc) : n'.read a = m'.read a := by
  cases h with
  | nothing hno => exact absurd ha (hno a)
  | write b v hacc =>
    obtain rfl : a = b := by simpa [hacc] using ha
    rw [Memory.read_write, Memory.read_write, if_pos rfl, if_pos rfl]

/-- Each memory reads as before where nothing was written. -/
theorem SameWrite.read_of_not_mem {acc : List Access} {m n m' n' : Memory} (h : SameWrite acc m n m' n') {a : Byte}
    (ha : Access.write a ∉ acc) : m'.read a = m.read a ∧ n'.read a = n.read a := by
  cases h with
  | nothing => exact ⟨rfl, rfl⟩
  | write b v hacc =>
    have hne : a ≠ b := by simpa [hacc] using ha
    rw [Memory.read_write, Memory.read_write, if_neg hne, if_neg hne]
    exact ⟨rfl, rfl⟩

/-- On another memory that reads alike where the instruction's data access reads, the instruction does the same apart
from memory, and writes the same there. -/
theorem Ran.withMem {i : Instr} {s t : State} (h : Ran i s t) {m : Memory}
    (hread : ∀ a, Access.read a ∈ dataAccess i s → m.read a = s.mem.read a) :
    ∃ n, Ran i { s with mem := m } { t with mem := n } ∧ SameWrite (dataAccess i s) s.mem m t.mem n := by
  cases h with
  | hlt => exact ⟨m, .hlt { s with mem := m }, .of_nil (dataAccess_of_memOp_none rfl s) _ _⟩
  | ldi _ k imm => exact ⟨m, .ldi { s with mem := m } k imm, .of_nil (dataAccess_of_memOp_none rfl s) _ _⟩
  | prn _ k => exact ⟨m, .prn { s with mem := m } k, .of_nil (dataAccess_of_memOp_none rfl s) _ _⟩
  | mul _ k j => exact ⟨m, .mul { s with mem := m } k j, .of_nil (dataAccess_of_memOp_none rfl s) _ _⟩
  | add _ k j => exact ⟨m, .add { s with mem := m } k j, .of_nil (dataAccess_of_memOp_none rfl s) _ _⟩
  | pop _ k =>
    have hsp : m.read (s.reg 7) = s.mem.read (s.reg 7) :=
      hread _ (by rw [dataAccess_pop]; exact List.mem_cons_self)
    exact ⟨m, hsp ▸ .pop { s with mem := m } k, .of_read (dataAccess_pop k s) _ _⟩
  | push _ k => exact ⟨_, .push { s with mem := m } k, .write _ _ (dataAccess_push k s)⟩
  | call _ k => exact ⟨_, .call { s with mem := m } k, .write _ _ (dataAccess_call k s)⟩
  | ret =>
    have hsp : m.read (s.reg 7) = s.mem.read (s.reg 7) := hread _ List.mem_cons_self
    exact ⟨m, hsp ▸ .ret { s with mem := m }, .of_read (dataAccess_ret s) _ _⟩
  | illegal _ _ hi =>
    exact ⟨m, .illegal i { s with mem := m } hi, .of_nil (dataAccess_of_memOp_none (memOp_illegal hi) s) _ _⟩
  | badRegister _ _ v hv =>
    exact ⟨m, .badRegister i { s with mem := m } v hv, .of_nil (dataAccess_of_refused hv s) _ _⟩

/-- The fetch from another memory that reads alike at the three addresses latches the same bytes (R55). -/
theorem State.fetch_withMem {s : State} {m : Memory} (hir : m.read s.pc = s.mem.read s.pc)
    (hopA : m.read (s.pc + 1) = s.mem.read (s.pc + 1)) (hopB : m.read (s.pc + 2) = s.mem.read (s.pc + 2)) :
    State.fetch { s with mem := m } = { s.fetch with mem := m } := by
  simp only [State.fetch, hir, hopA, hopB]

/-- The accesses of a step that write are those of its data access (R55). -/
theorem write_mem_accesses (opc : Opc) (s : State) (a : Byte) :
    Access.write a ∈ accesses opc s ↔ Access.write a ∈ dataAccess (s.nextInstr opc) s := by
  simp [accesses]

/-- Settles O21: both steps fetch the same bytes, and the instruction reads alike and writes the same on both
memories. -/
theorem stepTouchesOnlyItsAccesses : Obligations.StepTouchesOnlyItsAccesses := by
  intro opc s m h hr hread
  have hfetch : State.fetch { s with mem := m } = { s.fetch with mem := m } :=
    State.fetch_withMem (hread _ (by simp [accesses])) (hread _ (by simp [accesses])) (hread _ (by simp [accesses]))
  have hinstr : State.nextInstr opc { s with mem := m } = s.nextInstr opc := by
    rw [← nextInstr_eq, hfetch]
    rfl
  obtain ⟨t, ht, hran⟩ := stepWith_ran h hr
  obtain ⟨n, hran', hwrite⟩ :=
    hran.withMem (m := m) fun a ha => hread a (List.mem_append_right _ ha)
  have hu : stepWith opc { s with mem := m } = .next { t with mem := n } := by
    rw [stepWith_running (s := { s with mem := m }) h hr, hinstr, hfetch]
    exact exec_of_ran hran'
  refine ⟨t, _, ht, hu, rfl, fun a ha => ?_, fun a ha => ?_⟩ <;> rw [write_mem_accesses] at ha
  · exact hwrite.read_of_mem ha
  · exact hwrite.read_of_not_mem ha

end Sys2Proof.Machine

/-! ## Stack round trips (95_test_vectors.md W3 and W4; 20_memory.md section 5) -/

namespace Sys2Proof.Machine

/-- A raise of `SP` by one undoes its lowering by a push (R96, R97). -/
theorem State.push_sp_add_one (s : State) (v : Byte) : (s.push v).reg 7 + 1 = s.reg 7 := by
  rw [State.push_reg, if_pos rfl, BitVec.sub_add_cancel]

/-- The byte a push wrote is read at the stack pointer it leaves (R96). -/
theorem State.push_read_sp (s : State) (v : Byte) : (s.push v).mem.read ((s.push v).reg 7) = v := by
  rw [State.push_reg_sp, State.push_mem_read, if_pos rfl]

/-- A raise of `SP` after a push restores every register (R96, R97). -/
theorem State.push_setSp_reg (s : State) (v : Byte) (k : RegIdx) :
    ((s.push v).setSp ((s.push v).reg 7 + 1)).reg k = s.reg k := by
  rw [State.push_sp_add_one, State.setSp_reg]
  split
  · next hk => rw [hk]
  · next hk => exact s.push_reg_of_ne v hk

/-- Settles O44: the pop reads the pushed byte and restores `SP` before it writes its register. -/
theorem pushThenPopGivesTheByteBack : Obligations.PushThenPopGivesTheByteBack := by
  intro s i j
  refine ⟨_, _, exec_push s i, exec_pop _ j, ?_⟩
  have hreg (k : RegIdx) :
      (((s.push (s.reg i)).finish .push).setSp (((s.push (s.reg i)).finish .push).reg 7 + 1)).reg k = s.reg k :=
    s.push_setSp_reg (s.reg i) k
  refine ⟨?_, fun hj => ?_, fun k hk _ => ?_⟩
  · rw [State.setReg_finish_reg, if_pos rfl]
    exact s.push_read_sp (s.reg i)
  · rw [State.setReg_finish_reg, if_neg hj.symm, hreg]
  · rw [State.setReg_finish_reg, if_neg hk, hreg]

/-- Settles O45: RET jumps to the pushed return address and restores `SP`. -/
theorem callThenRetComesBack : Obligations.CallThenRetComesBack := by
  intro s i
  refine ⟨_, _, exec_call s i, exec_ret _, ?_, fun k => s.push_setSp_reg (s.pc + 2) k⟩
  rw [State.jump_finish_pc _ _ rfl, State.jump_finish_reg, State.jump_finish_mem, State.push_read_sp, BitVec.toNat_add]
  rfl

/-- Settles O46: the next fetch reads the memory after the push, at the addresses after the PUSH. -/
theorem pushOverItsOwnBytesIsSeenByTheNextFetch : Obligations.PushOverItsOwnBytesIsSeenByTheNextFetch := by
  intro opc s i h hr hi
  have hstep : stepWith opc s = .next ((s.fetch.push (s.reg i)).finish .push) := by
    rw [stepWith_running h hr, hi]
    exact exec_push s.fetch i
  have hmem (a : Byte) :
      ((s.fetch.push (s.reg i)).finish .push).mem.read a = if a = s.pushAddr then s.reg i else s.mem.read a :=
    s.fetch.push_mem_read (s.reg i) a
  have hpc : ((s.fetch.push (s.reg i)).finish .push).pc = s.pc + 2 := rfl
  have hone : s.pc + 2 + 1 = s.pc + 3 := BitVec.add_assoc ..
  have htwo : s.pc + 2 + 2 = s.pc + 4 := BitVec.add_assoc ..
  refine ⟨_, hstep, (hmem _).trans (if_pos rfl), hpc, ?_⟩
  simp only [State.fetch_ir, State.fetch_opA, State.fetch_opB, hpc, hone, htwo, hmem]
  exact ⟨fun ha => if_pos ha.symm, fun ha => if_neg ha.symm, fun ha => if_pos ha.symm, fun ha => if_neg ha.symm,
    fun ha => if_pos ha.symm, fun ha => if_neg ha.symm⟩

end Sys2Proof.Machine
